-- ==== Sys2Proof/Word.lean ====
section
/-! DEFINITION. The word and byte types of the block (`00_scope.md` R6, R10): a word is a number in
`0 .. 2^32 − 1`, a byte a number in `0 .. 255`; bit 0 is the least significant bit (R9). -/

namespace Sys2Proof

/-- A byte, `0 .. 255` (R10). -/
abbrev Byte := BitVec 8

/-- A 32-bit word: a register word, an instruction word, an acknowledge word, a stream word
(R6 `WORD_W`), and a `u32` value (R6 `VALUE_W`). -/
abbrev Word := BitVec 32

/-- A sequence of exactly 4 bytes, index 0 the first byte on the wire (`30_encoding.md` R71
`bytes4`, `00_scope.md` R11). -/
structure Bytes4 where
  b0 : Byte
  b1 : Byte
  b2 : Byte
  b3 : Byte
deriving DecidableEq, Repr

/-- The four bytes as a sequence in wire order. -/
def Bytes4.toList (b : Bytes4) : List Byte := [b.b0, b.b1, b.b2, b.b3]

/-- The four bytes in the opposite order (`42_word_bytes.md` R135 `reverse`). -/
def Bytes4.reverse (b : Bytes4) : Bytes4 := ⟨b.b3, b.b2, b.b1, b.b0⟩

end Sys2Proof
end

