-- ==== Sys2Proof/Config.lean ====
section
/-! DEFINITION. The parameters an implementation fixes (`00_scope.md` R7, `10_state.md` R20 to R23,
R27) as plain data, before any check, and the free values of the model. The checks that make a raw
configuration a block's configuration are in `WellFormed.lean`. -/

namespace Sys2Proof

/-- The two register families (`10_state.md` R23); an annotation that no operation reads
(`40_field_codec.md` R107). -/
inductive Family where
  | config
  | monitor
deriving DecidableEq, Repr

/-- The immutable part of a field, `fld(r, i)` (`10_state.md` R22). `bitWidth` is a raw number:
W1 of `WellFormed.lean` bounds it. -/
structure FieldDesc where
  name : String
  bitWidth : Nat
  minValue : Word
  maxValue : Word
  defaultValue : Word
deriving DecidableEq, Repr

/-- A register description `CAT.reg[r]` (`10_state.md` R23): its family, its device address
(`(module << 8) | regOffset`, a raw number that W8 bounds) and its fields in declaration order. -/
structure RegisterDesc where
  family : Family
  address : Nat
  fields : List FieldDesc
deriving DecidableEq, Repr

/-- `CHUNK_MODE` (`44_stream_reassembler.md` R162, R163). -/
inductive ChunkMode where
  | byte
  | word
deriving DecidableEq, Repr

/-- `CH_HI_POS ∈ {12, 16, 20}` (`30_encoding.md` R85). -/
inductive ChHiPos where
  | at12
  | at16
  | at20
deriving DecidableEq, Repr

/-- The bit position of the odd-numbered channel in its word (R85). -/
def ChHiPos.toNat : ChHiPos → Nat
  | .at12 => 12
  | .at16 => 16
  | .at20 => 20

/-- Where a component of `width` bits stands in a monitoring record: one of the words `W0 .. W2` and
the position of its lowest bit (`30_encoding.md` R84). DEDUCED: the component's bits
`[pos + width − 1 : pos]` are bits of a 32-bit word, so `pos ≤ 32 − width` (log entry 4). -/
structure Place (width : Nat) where
  word : Fin 3
  pos : Fin (33 - width)
deriving DecidableEq, Repr

/-- `REC_LAYOUT` (`30_encoding.md` R84). -/
structure RecLayout where
  ldoOn : Place 1
  moduleAddress : Place 4
  dataType : Place 2
  timestampHigh : Place 24
  timestampLow : Place 24
deriving DecidableEq, Repr

/-- The spec's default layout, the instance `{(0,0), (0,1), (0,5), (1,0), (2,0)}` of R84. -/
def RecLayout.specDefault : RecLayout where
  ldoOn := ⟨0, 0⟩
  moduleAddress := ⟨0, 1⟩
  dataType := ⟨0, 5⟩
  timestampHigh := ⟨1, 0⟩
  timestampLow := ⟨2, 0⟩

/-- A raw configuration: the declared registers, in declaration order, and the other parameters of
`00_scope.md` R7. `recLayout`, `chHiPos` and `chunkMode` have the defaults of R7; the others have
none there and none here. DESIGN CHOICE: every role parameter is there (log entry 6). -/
structure RawConfig where
  registers : List RegisterDesc
  idReg : Nat
  fwReg : Nat
  fwDateIdx : Nat
  ackHdrReg : Nat
  ackDataReg : Nat
  eorMarker : Word
  recLayout : RecLayout := RecLayout.specDefault
  chHiPos : ChHiPos := .at12
  chunkMode : ChunkMode := .byte
deriving DecidableEq, Repr

/-- FREE VALUE (log entry 1). What the cell `READ[r][i]` holds between construction and the first
`DECODE` of register `r`: "an arbitrary 32-bit value" (`10_state.md` R42, `92_eei_decisions.md` D9,
`93_implementation_defined.md` U2). It has no body, so nothing can be proved of it. -/
opaque Config.readAtReset : Nat → Nat → Word

/-- FREE VALUE (log entry 12). The word of `PACK` when a cell of the register is wider than its field, so
that fields overlap: undefined (`70_reset_and_hazards.md` R234, `93_implementation_defined.md` U1), and
met in no state of the block. A function of the fields and the cells, with no body: "sum, OR or
last-writer" is not among what can be proved of it. -/
opaque Config.packOverlap : List FieldDesc → List Word → Word

end Sys2Proof
end

