-- ==== Sys2Proof/Syntax.lean ====
section
/-! DEFINITION. The operations of the block as syntax (`30_encoding.md` R70 to R72), one constructor
of `Instr` for each row of `spec/opcode_table.json`, and the request in which a host presents one:
an 8-bit selector followed by typed operands. -/

namespace Sys2Proof

/-- The operations of the block (`30_encoding.md` R72). The operands have the types of R71, so an
operand outside its type is no term; `regid` and `fidx` are any natural numbers, on purpose wider
than the valid range. -/
inductive Instr where
  /-- `SETFIELD r, i, v` (R100). -/
  | setfield (r : Nat) (i : Nat) (v : Word)
  /-- `PACK r` (R102). -/
  | pack (r : Nat)
  /-- `DECODE r, w` (R104). -/
  | decode (r : Nat) (w : Word)
  /-- `GETFIELD r, i` (R108). -/
  | getfield (r : Nat) (i : Nat)
  /-- `LOOKUP n` (R123). -/
  | lookup (n : String)
  /-- `WORDMSB b` (R131). -/
  | wordmsb (b : Bytes4)
  /-- `BYTESMSB w` (R134). -/
  | bytesmsb (w : Word)
  /-- `WORDLSB b` (R133). -/
  | wordlsb (b : Bytes4)
  /-- `MKINSTR a, m, rw` (R140). -/
  | mkinstr (a : BitVec 12) (m : BitVec 4) (rw : BitVec 1)
  /-- `BOARDADDR` (R143). -/
  | boardaddr
  /-- `FWVERSION` (R144). -/
  | fwversion
  /-- `FWDATE` (R145). -/
  | fwdate
  /-- `PUSH c` (R160). -/
  | push (c : List Byte)
  /-- `PUSHRAW c` (R172). -/
  | pushraw (c : List Byte)
  /-- `RSTSTRM` (R175). -/
  | rststrm
deriving DecidableEq, Repr

/-- The mnemonics of R72, without operands. -/
inductive Mnemonic where
  | setfield | pack | decode | getfield | lookup
  | wordmsb | bytesmsb | wordlsb
  | mkinstr | boardaddr | fwversion | fwdate
  | push | pushraw | rststrm
deriving DecidableEq, Repr

/-- The operand types of `30_encoding.md` R71. -/
inductive OperandType where
  | regid | fidx | u32 | u12 | u4 | u1 | bytes4 | bytes | name
deriving DecidableEq, Repr

/-- A typed operand value (R70, R71). -/
inductive Operand where
  | regid (r : Nat)
  | fidx (i : Nat)
  | u32 (v : Word)
  | u12 (a : BitVec 12)
  | u4 (m : BitVec 4)
  | u1 (b : BitVec 1)
  | bytes4 (b : Bytes4)
  | bytes (c : List Byte)
  | name (n : String)
deriving DecidableEq, Repr

/-- An operation request: "one 8-bit *selector* followed by the operation's operands as typed
values" (R70). -/
structure Request where
  selector : BitVec 8
  operands : List Operand
deriving DecidableEq, Repr

/-- One row of the selector table of R72: the selector, the mnemonic and the types of the operands
it demands. -/
structure SelectorRow where
  selector : BitVec 8
  mnemonic : Mnemonic
  operands : List OperandType
deriving DecidableEq, Repr

end Sys2Proof
end

