-- ==== Sys2Proof/WellFormed.lean ====
section
/-! DEFINITION. The well-formedness conditions W1 to W9 of a raw configuration (`10_state.md` R24)
and the typed configuration, a raw one with the proof that all hold (R25). No check of an
instruction stands here: an operand outside its type "cannot be expressed" (`30_encoding.md` R71),
and the types of `Instr` are those types, so every term of `Instr` is well formed. -/

namespace Sys2Proof

/-- A field of a raw configuration with its location `(reg, idx)` and its register. -/
structure FieldAt where
  reg : Nat
  idx : Nat
  register : RegisterDesc
  field : FieldDesc
deriving DecidableEq, Repr

/-- Every field of the catalog with its location, in declaration order (`41_catalog.md` R120:
"for r in 0 .. NREG−1, for i in 0 .. nf(r)−1, in that order"). -/
def RawConfig.fieldList (c : RawConfig) : List FieldAt :=
  c.registers.zipIdx.flatMap fun gr => gr.1.fields.zipIdx.map fun fi => ⟨gr.2, fi.2, gr.1, fi.1⟩

/-- `Σ_i bitWidth` of a field list (W2). -/
def totalWidth (fields : List FieldDesc) : Nat := (fields.map (·.bitWidth)).sum

/-- The well-formedness conditions W1 to W9 (`10_state.md` R24). -/
inductive Condition where
  | w1 | w2 | w3 | w4 | w5 | w6 | w7 | w8 | w9
deriving DecidableEq, Repr

/-- The parameters that W9 constrains. -/
inductive Role where
  | idReg | fwReg | fwDateIdx | ackHdrReg | ackDataReg
deriving DecidableEq, Repr

/-- What breaks a condition: a field, a register or a role parameter. -/
inductive Culprit where
  | field (r i : Nat)
  | register (r : Nat)
  | role (p : Role)
deriving DecidableEq, Repr

/-- The fields that fail a test of a field in its register. -/
def RawConfig.fieldsFailing (c : RawConfig) (ok : RegisterDesc → FieldDesc → Bool) : List Culprit :=
  (c.fieldList.filter fun e => !ok e.register e.field).map fun e => .field e.reg e.idx

/-- The registers that fail a test. -/
def RawConfig.registersFailing (c : RawConfig) (ok : RegisterDesc → Bool) : List Culprit :=
  (c.registers.zipIdx.filter fun gr => !ok gr.1).map fun gr => .register gr.2

/-- Inserts the names of a list of fields into a map that has the names `seen`, and collects the
fields whose name the map had already (`41_catalog.md` R120, the loop of `Construct`). -/
def repeatedNames (seen : List String) : List FieldAt → List Culprit
  | [] => []
  | e :: es =>
    if e.field.name ∈ seen then .field e.reg e.idx :: repeatedNames seen es
    else repeatedNames (e.field.name :: seen) es

/-- The fields whose name an earlier field of the list has (W3), in the order of the list. DESIGN CHOICE
(log entry 8): of several repeated names the one construction reports is the head of this list, the
field at which the loop of `41_catalog.md` R120 first finds its name taken; the spec leaves it open
(`93_implementation_defined.md` U15, `92_eei_decisions.md` D7). -/
def duplicateNames (es : List FieldAt) : List Culprit := repeatedNames [] es

/-- The role parameters that W9 refuses. -/
def RawConfig.rolesFailing (c : RawConfig) : List Culprit :=
  (if c.idReg < c.registers.length then [] else [.role .idReg])
    ++ (if c.fwReg < c.registers.length then [] else [.role .fwReg])
    ++ (match c.registers[c.fwReg]? with
        | some g => if c.fwDateIdx < g.fields.length then [] else [.role .fwDateIdx]
        | none => [.role .fwDateIdx])
    ++ (match c.registers[c.ackHdrReg]? with
        | some g => if g.fields.map (·.bitWidth) = [32] then [] else [.role .ackHdrReg]
        | none => [.role .ackHdrReg])
    ++ (match c.registers[c.ackDataReg]? with
        | some g => if g.fields.length = 1 then [] else [.role .ackDataReg]
        | none => [.role .ackDataReg])

/-- What breaks each condition of `10_state.md` R24; the condition holds when the list is empty. -/
def RawConfig.culprits (c : RawConfig) : Condition → List Culprit
  | .w1 => c.fieldsFailing fun _ f => decide (1 ≤ f.bitWidth ∧ f.bitWidth ≤ 32)
  | .w2 => c.registersFailing fun g => decide (totalWidth g.fields ≤ 32)
  | .w3 => duplicateNames c.fieldList
  | .w4 => c.fieldsFailing fun _ f => decide (f.minValue ≤ f.maxValue)
  | .w5 => c.fieldsFailing fun _ f => decide (f.maxValue.toNat ≤ 2 ^ f.bitWidth - 1)
  | .w6 => c.fieldsFailing fun _ f =>
      decide (f.minValue ≤ f.defaultValue ∧ f.defaultValue ≤ f.maxValue)
  | .w7 => c.fieldsFailing fun g f => decide (g.family = .monitor → f.defaultValue = 0)
  | .w8 => c.registersFailing fun g => decide (g.address ≤ 4095)
  | .w9 => c.rolesFailing

/-- The order in which construction checks: names while the map is built, then W1, W2, W4 to W9
(`41_catalog.md` R120). -/
def Condition.inOrder : List Condition := [.w3, .w1, .w2, .w4, .w5, .w6, .w7, .w8, .w9]

/-- A failed construction names the failed condition and what breaks it (R25, R120). -/
structure Defect where
  condition : Condition
  culprit : Culprit
deriving DecidableEq, Repr

/-- The defect construction reports, if any: the first of the first condition that fails; which one
it is "is the spec's own and nothing depends on it" (R120). DESIGN CHOICE: the order within one condition,
and the record of what breaks it (log entry 8). -/
def RawConfig.firstDefect (c : RawConfig) : Option Defect :=
  Condition.inOrder.findSome? fun k => (c.culprits k).head?.map fun p => ⟨k, p⟩

/-- All of W1 to W9 hold (`10_state.md` R24): construction finds no defect. -/
def RawConfig.wellFormed (c : RawConfig) : Bool := c.firstDefect.isNone

/-- The catalog `T` and the parameters of `95_test_vectors.md` section 2.0, "invented for these
vectors"; the model uses it in its own tests and as the witness that a configuration exists. -/
def vectorConfig : RawConfig where
  registers :=
    [ ⟨.config, 0x005, [⟨"e_lo", 12, 0, 4095, 100⟩, ⟨"e_hi", 4, 0, 15, 1⟩]⟩,
      ⟨.config, 0x106, [⟨"g_en", 1, 0, 1, 0⟩, ⟨"g_sel", 4, 2, 9, 2⟩, ⟨"g_mode", 2, 0, 2, 1⟩]⟩,
      ⟨.monitor, 0x0F0, [⟨"fw_rev", 8, 0, 255, 0⟩, ⟨"fw_date", 24, 0, 0xFFFFFF, 0⟩]⟩,
      ⟨.monitor, 0x000, [⟨"ack_hdr", 32, 0, 0xFFFFFFFF, 0⟩]⟩,
      ⟨.monitor, 0x000, [⟨"ack_data", 32, 0, 0xFFFFFFFF, 0⟩]⟩,
      ⟨.config, 0x007, []⟩ ]
  idReg := 2
  fwReg := 2
  fwDateIdx := 1
  ackHdrReg := 3
  ackDataReg := 4
  eorMarker := 0xCAFEF00D

/-- The typed configuration: a raw one with the proof of W1 to W9; "the block exists only for a
well-formed catalog" (`10_state.md` R25). The values written after `:=` only show that one exists,
so that `Config.board` may be declared; every use in the model names both fields. -/
structure Config where
  raw : RawConfig := vectorConfig
  ok : raw.wellFormed = true := by decide
deriving DecidableEq, Repr, Inhabited

/-- The configuration of the board the block is built for. OPEN in the spec (`00_scope.md` R7,
`92_eei_decisions.md` D6, D16, D18, D20): it has no body, so that it is a well-formed configuration
of which nothing else can be proved (log entry 2). -/
opaque Config.board : Config

end Sys2Proof
end

