-- ==== Sys2Proof/Decode.lean ====
section
/-! DEFINITION. The request decoder and the encoder (`30_encoding.md` R70 to R74). A request is a
selector and a list of typed operands; decoding is total and rejects by name. -/

namespace Sys2Proof

/-- The selector table of R72 (`spec/opcode_table.json`). -/
def selectorTable : List SelectorRow :=
  [ ⟨0x01, .setfield, [.regid, .fidx, .u32]⟩,
    ⟨0x02, .pack, [.regid]⟩,
    ⟨0x03, .decode, [.regid, .u32]⟩,
    ⟨0x04, .getfield, [.regid, .fidx]⟩,
    ⟨0x05, .lookup, [.name]⟩,
    ⟨0x10, .wordmsb, [.bytes4]⟩,
    ⟨0x11, .bytesmsb, [.u32]⟩,
    ⟨0x12, .wordlsb, [.bytes4]⟩,
    ⟨0x18, .mkinstr, [.u12, .u4, .u1]⟩,
    ⟨0x19, .boardaddr, []⟩,
    ⟨0x1A, .fwversion, []⟩,
    ⟨0x1B, .fwdate, []⟩,
    ⟨0x20, .push, [.bytes]⟩,
    ⟨0x21, .pushraw, [.bytes]⟩,
    ⟨0x22, .rststrm, []⟩ ]

/-- The row of a selector; none when the selector is reserved (R74). -/
def selectorRow (sel : BitVec 8) : Option SelectorRow :=
  selectorTable.find? fun row => row.selector == sel

/-- The type of an operand (R71). -/
def operandType : Operand → OperandType
  | .regid _ => .regid
  | .fidx _ => .fidx
  | .u32 _ => .u32
  | .u12 _ => .u12
  | .u4 _ => .u4
  | .u1 _ => .u1
  | .bytes4 _ => .bytes4
  | .bytes _ => .bytes
  | .name _ => .name

/-- The instruction of a mnemonic and an operand list; none when the list is not the one the
mnemonic demands (R70, R72). -/
def assembleInstr : Mnemonic → List Operand → Option Instr
  | .setfield, ops => match ops with
    | [.regid r, .fidx i, .u32 v] => some (.setfield r i v)
    | _ => none
  | .pack, ops => match ops with
    | [.regid r] => some (.pack r)
    | _ => none
  | .decode, ops => match ops with
    | [.regid r, .u32 w] => some (.decode r w)
    | _ => none
  | .getfield, ops => match ops with
    | [.regid r, .fidx i] => some (.getfield r i)
    | _ => none
  | .lookup, ops => match ops with
    | [.name n] => some (.lookup n)
    | _ => none
  | .wordmsb, ops => match ops with
    | [.bytes4 b] => some (.wordmsb b)
    | _ => none
  | .bytesmsb, ops => match ops with
    | [.u32 w] => some (.bytesmsb w)
    | _ => none
  | .wordlsb, ops => match ops with
    | [.bytes4 b] => some (.wordlsb b)
    | _ => none
  | .mkinstr, ops => match ops with
    | [.u12 a, .u4 m, .u1 rw] => some (.mkinstr a m rw)
    | _ => none
  | .boardaddr, ops => match ops with
    | [] => some .boardaddr
    | _ => none
  | .fwversion, ops => match ops with
    | [] => some .fwversion
    | _ => none
  | .fwdate, ops => match ops with
    | [] => some .fwdate
    | _ => none
  | .push, ops => match ops with
    | [.bytes c] => some (.push c)
    | _ => none
  | .pushraw, ops => match ops with
    | [.bytes c] => some (.pushraw c)
    | _ => none
  | .rststrm, ops => match ops with
    | [] => some .rststrm
    | _ => none

/-- Why a request decodes to no instruction. -/
inductive DecodeError where
  /-- The selector is not in R72: the request fails with `ILLEGAL_OP` (R74). -/
  | reservedSelector
  /-- The operands are not the list the selector demands: not a request (R70, R71). -/
  | operandsDoNotFit (m : Mnemonic)
deriving DecidableEq, Repr

/-- The instruction a request stands for. "`ILLEGAL_OP` is decided from the selector before any
operand is looked at" (`60_exceptions.md` R199). -/
def decode (q : Request) : Except DecodeError Instr :=
  match selectorRow q.selector with
  | none => .error .reservedSelector
  | some row =>
    match assembleInstr row.mnemonic q.operands with
    | some i => .ok i
    | none => .error (.operandsDoNotFit row.mnemonic)

/-- The request of an instruction, written from R72. -/
def encode : Instr → Request
  | .setfield r i v => ⟨0x01, [.regid r, .fidx i, .u32 v]⟩
  | .pack r => ⟨0x02, [.regid r]⟩
  | .decode r w => ⟨0x03, [.regid r, .u32 w]⟩
  | .getfield r i => ⟨0x04, [.regid r, .fidx i]⟩
  | .lookup n => ⟨0x05, [.name n]⟩
  | .wordmsb b => ⟨0x10, [.bytes4 b]⟩
  | .bytesmsb w => ⟨0x11, [.u32 w]⟩
  | .wordlsb b => ⟨0x12, [.bytes4 b]⟩
  | .mkinstr a m rw => ⟨0x18, [.u12 a, .u4 m, .u1 rw]⟩
  | .boardaddr => ⟨0x19, []⟩
  | .fwversion => ⟨0x1A, []⟩
  | .fwdate => ⟨0x1B, []⟩
  | .push c => ⟨0x20, [.bytes c]⟩
  | .pushraw c => ⟨0x21, [.bytes c]⟩
  | .rststrm => ⟨0x22, []⟩

/-- The all-zero operand of a type: the number 0, zero bytes, the empty byte sequence, the empty
name. -/
def zeroOperand : OperandType → Operand
  | .regid => .regid 0
  | .fidx => .fidx 0
  | .u32 => .u32 0
  | .u12 => .u12 0
  | .u4 => .u4 0
  | .u1 => .u1 0
  | .bytes4 => .bytes4 ⟨0, 0, 0, 0⟩
  | .bytes => .bytes []
  | .name => .name ""

/-- The request whose selector is the low 8 of `w`'s `nbits` bits and whose operands are all zero.
The table gives an operand no bits (`30_encoding.md` R70), so a word of the table is a selector
alone. -/
def requestOfTableWord (nbits w : Nat) : Request :=
  let sel := BitVec.ofNat 8 (w % 2 ^ nbits)
  ⟨sel, match selectorRow sel with
    | some row => row.operands.map zeroOperand
    | none => []⟩

/-- The instruction the decoder reads from a word of `spec/opcode_table.json` with zero operands. -/
def decodeTableWord (nbits w : Nat) : Option Instr :=
  match decode (requestOfTableWord nbits w) with
  | .ok i => some i
  | .error _ => none

end Sys2Proof
end

