-- ==== Sys2Proof/Machine/State.lean ====
section
/-! DEFINITION. The state of the block (`10_state.md` R20): the field value store and the
DecoderState, beside them the configuration, and the model's two host-side fields, the requests the
host has still to issue and the response to the last one. Reset is construction (R40). -/

namespace Sys2Proof.Machine

/-- The statuses other than `OK` (`60_exceptions.md` R190). -/
inductive Failure where
  /-- `RANGE_ERR` (R191): `SETFIELD`, `PACK`, `DECODE`, `GETFIELD`. -/
  | rangeErr
  /-- `LOOKUP_ERR` (R192): `LOOKUP`. -/
  | lookupErr
  /-- `TRANSPORT_ERR` (R196): no operation of the block, only the boundary procedures. -/
  | transportErr
  /-- `FORMAT_ERR` (R193): `PUSH`, `PUSHRAW` in `CHUNK_MODE = WORD`. -/
  | formatErr
  /-- `EMPTY_ERR` (R194): `PACK`. -/
  | emptyErr
  /-- `ILLEGAL_OP` (R194): the request decoder. -/
  | illegalOp
deriving DecidableEq, Repr

/-- A decoded monitoring record (`30_encoding.md` R83), a value and not state (`10_state.md` R39). -/
structure MonitoringRecord where
  ldoOn : Bool
  moduleAddress : BitVec 4
  dataType : BitVec 2
  timestampHigh : BitVec 24
  timestampLow : BitVec 24
  timestamp : BitVec 48
  channel : Vector (BitVec 12) 6
deriving DecidableEq, Repr

/-- The results of an operation on `OK` (`30_encoding.md` R72); `eor` and `u1` flags are `Bool`,
1 being `true`. -/
inductive Results where
  /-- No result: `SETFIELD`, `DECODE`, `RSTSTRM`. -/
  | nothing
  /-- `word: u32`: `PACK`, `WORDMSB`, `WORDLSB`, `MKINSTR`, `FWVERSION`. -/
  | word (w : Word)
  /-- `set: u32, read: u32`: `GETFIELD`. -/
  | cells (set read : Word)
  /-- `r: regid, i: fidx`: `LOOKUP`. -/
  | location (r i : Nat)
  /-- `b: bytes4`: `BYTESMSB`. -/
  | bytes4 (b : Bytes4)
  /-- `addr: u4`: `BOARDADDR`. -/
  | addr (a : BitVec 4)
  /-- `value: u32`: `FWDATE`. -/
  | value (v : Word)
  /-- `records, eor: u1`: `PUSH`. -/
  | records (rs : List MonitoringRecord) (eor : Bool)
  /-- `raw: bytes, eor: u1`: `PUSHRAW`. -/
  | raw (bytes : List Byte) (eor : Bool)
deriving DecidableEq, Repr

/-- What an operation hands back: `OK` with results, or another status and "no result"
(`30_encoding.md` R73). -/
inductive Response where
  | ok (results : Results)
  | failed (e : Failure)
deriving DecidableEq, Repr

/-- The block has no fatal state: "there is no fatal state, no lock-up, and no operation after which
further operations are refused" (`60_exceptions.md` R201), so no reason to stop exists and this type
has no constructor. Safe. -/
inductive Fault : Type
deriving DecidableEq, Repr

/-- Why a step gives no meaning. -/
inductive Refusal where
  /-- Raised by an arm of `exec` whose instruction has no meaning yet; safe. No arm of this model
  raises it. -/
  | notModelled (mnemonic : String)
  /-- Raised by `step` alone, for a pending entry whose selector is in R72 and whose operands are not
  "the operand list its selector demands" (`30_encoding.md` R70): by R71 that "cannot be expressed",
  it is no request. Safe: the model stops where the spec has no machine at all (log entry 5). -/
  | operandsDoNotFit (mnemonic : Mnemonic)
deriving DecidableEq, Repr

/-- The state of the machine. `setCells` and `readCells` are the field value store: entry `i` of
entry `r` is the cell `SET[r][i]`, `READ[r][i]` (R28). `carry` and `resid` are the DecoderState
(R32, R33). `config` is configuration, "not state" (R20): no operation changes it, and it stands
here because an operation sees nothing but the state. `program` and `response` are the model's own
(log entry 3): the requests the host has still to issue, first one next (`30_encoding.md` R88), and
what the last operation handed back; the block reads neither (R37). -/
structure State where
  config : Config
  setCells : List (List Word)
  readCells : List (List Word)
  carry : List Word
  resid : List Byte
  program : List Request
  response : Option Response
deriving DecidableEq, Repr

/-- The block right after construction from a well-formed configuration (`10_state.md` R40 to R43):
`SET` at the catalog defaults, each `READ` cell at a free value, the DecoderState empty, no
operation asked for yet (`70_reset_and_hazards.md` R221). -/
def State.ofConfig (c : Config) : State where
  config := c
  setCells := c.raw.registers.map fun g => g.fields.map (·.defaultValue)
  readCells := c.raw.registers.mapIdx fun r g => g.fields.mapIdx fun i _ => Config.readAtReset r i
  carry := []
  resid := []
  program := []
  response := none

/-- The machine right after reset: the block constructed for the board's configuration (R40, R220). -/
def State.reset : State := State.ofConfig Config.board

end Sys2Proof.Machine
end

