-- ==== Sys2Proof/Machine/Ops.lean ====
section
/-! DEFINITION. The named operations over the state: construction (`41_catalog.md` R120), reads and
writes of the field value store (`20_memory.md` R51), how an operation completes or fails
(`60_exceptions.md` R190, R195), and how the next request reaches the decoder (`30_encoding.md` R88). -/

namespace Sys2Proof.Machine

/-- The outcome of a step of this machine. -/
abbrev Result := Host.Outcome State Fault Refusal

/-! ### Construction and status codes -/

/-- `Construct` (`41_catalog.md` R120): a block, or the defect that makes the raw configuration
ill-formed; "a catalog that fails any of W1 to W9 yields no block" (`10_state.md` R25). -/
def construct (raw : RawConfig) : Except Defect State :=
  match h : raw.firstDefect with
  | none => .ok (State.ofConfig ⟨raw, by simp [RawConfig.wellFormed, h]⟩)
  | some d => .error d

/-- The status codes of `60_exceptions.md` R190; `OK` is 0. -/
def Failure.code : Failure → Nat
  | .rangeErr => 1
  | .lookupErr => 2
  | .transportErr => 3
  | .formatErr => 4
  | .emptyErr => 5
  | .illegalOp => 6

/-- The status code of a response (R190). -/
def Response.code : Response → Nat
  | .ok _ => 0
  | .failed e => e.code

/-! ### The catalog as the state carries it -/

/-- `CAT.reg[0 .. NREG−1]` (`10_state.md` R21). -/
def State.registers (s : State) : List RegisterDesc := s.config.raw.registers

/-- The fields of register `r`, index 0 first; no fields where there is no such register. -/
def State.fieldsOf (s : State) (r : Nat) : List FieldDesc :=
  match s.registers[r]? with
  | some g => g.fields
  | none => []

/-! ### The cells of the field value store -/

/-- Row `r` of a store: the cells of one register, field 0 first. -/
def rowOf (cells : List (List Word)) (r : Nat) : List Word := (cells[r]?).getD []

/-- The cells `SET[r][0 ..]`. -/
def State.setRow (s : State) (r : Nat) : List Word := rowOf s.setCells r

/-- The cells `READ[r][0 ..]`. -/
def State.readRow (s : State) (r : Nat) : List Word := rowOf s.readCells r

/-- `SET[r][i]` (`00_scope.md` R12). DESIGN CHOICE: a location that does not exist reads as 0 here (log
entry 7); every operation checks the location before it reads (`20_memory.md` R51), so no result shows
that 0. -/
def State.setCell (s : State) (r i : Nat) : Word := ((s.setRow r)[i]?).getD 0

/-- `READ[r][i]` (`00_scope.md` R12); as `State.setCell` where there is no such location. -/
def State.readCell (s : State) (r i : Nat) : Word := ((s.readRow r)[i]?).getD 0

/-- `SET[r][i] <- v`. -/
def State.writeSet (s : State) (r i : Nat) (v : Word) : State :=
  { s with setCells := s.setCells.set r ((s.setRow r).set i v) }

/-- `READ[r][0 ..] <- row`: all `READ` cells of one register at once (`20_memory.md` R51). -/
def State.writeReadRow (s : State) (r : Nat) (row : List Word) : State :=
  { s with readCells := s.readCells.set r row }

/-- `CARRY <- ws` and `RESID <- bs`. -/
def State.writeDecoder (s : State) (ws : List Word) (bs : List Byte) : State :=
  { s with carry := ws, resid := bs }

/-! ### Completing and failing -/

/-- Hands a response to the host. -/
def State.respond (s : State) (p : Response) : State := { s with response := some p }

/-- `fail <Status>` (`00_scope.md` R12): the status goes to the host and no state is written
(`60_exceptions.md` R195). -/
def State.fail (s : State) (e : Failure) : State := s.respond (.failed e)

/-- Ends an operation: on success its new state with its results, on failure the state it began with
(`20_memory.md` R59, `60_exceptions.md` R195, R200). Every operation of the block ends here, in a
next state. -/
def complete (s : State) (o : Except Failure (State × Results)) : Result :=
  .next (match o with
    | .ok (t, res) => t.respond (.ok res)
    | .error e => s.fail e)

/-! ### The next request -/

/-- The request the host issues next, and the state with it issued; none when the host has no
request (`30_encoding.md` R88: requests are issued top to bottom). -/
def fetch (s : State) : Option (Request × State) :=
  match s.program with
  | [] => none
  | q :: rest => some (q, { s with program := rest })

/-- With no request the block "is idle and waits" (`70_reset_and_hazards.md` R221). -/
def idle (s : State) : Result := .next s

/-- What becomes of an entry that decodes to no instruction: a reserved selector fails with
`ILLEGAL_OP` and changes nothing (`30_encoding.md` R74); an operand list that does not fit its
selector is no request at all (R70, R71), and the model refuses it by name. -/
def rejectRequest (e : DecodeError) (s : State) : Result :=
  match e with
  | .reservedSelector => .next (s.fail .illegalOp)
  | .operandsDoNotFit m => .refused (.operandsDoNotFit m)

/-- The state with a request in the place `fetch` takes the next one from. -/
def State.placeRequest (s : State) (q : Request) : State :=
  { s with program := q :: s.program.tail }

end Sys2Proof.Machine
end

