-- ==== Sys2Proof/Machine/Operands.lean ====
section
/-! DEFINITION. The operand forms: register and field operands (`20_memory.md` R51), byte operands
and the two byte orders (`42_word_bytes.md`), and the layout of a register word
(`30_encoding.md` R75, R76). -/

namespace Sys2Proof.Machine

/-! ### Register and field operands -/

/-- The register a `regid` operand names, or `RANGE_ERR` when `r ≥ NREG` (`60_exceptions.md` R191 (d)). -/
def resolveRegister (s : State) (r : Nat) : Except Failure RegisterDesc :=
  match s.registers[r]? with
  | none => .error .rangeErr
  | some g => .ok g

/-- The field a `regid`, `fidx` pair names, or `RANGE_ERR`: the register id first, then the field
index (`60_exceptions.md` R191 (b) (c) (d), R199). -/
def resolveField (s : State) (r i : Nat) : Except Failure FieldDesc :=
  match resolveRegister s r with
  | .error e => .error e
  | .ok g =>
    match g.fields[i]? with
    | none => .error .rangeErr
    | some f => .ok f

/-! ### Byte operands -/

/-- `MSBn(b)`: byte `i` contributes `byte[i] << (8 * (numBytes - 1 - i))` (`42_word_bytes.md` R130). -/
def msbN : List Byte → Nat
  | [] => 0
  | b :: bs => (b.toNat <<< (8 * bs.length)) + msbN bs

/-- `LSBn(b)`: byte `i` contributes `byte[i] << (8 * i)` (`42_word_bytes.md` R132). -/
def lsbN : List Byte → Nat
  | [] => 0
  | b :: bs => b.toNat + (lsbN bs <<< 8)

/-- `MSB32(b)` (R130). -/
def msb32 (b : Bytes4) : Word := BitVec.ofNat 32 (msbN b.toList)

/-- `LSB32(b)` (R132). -/
def lsb32 (b : Bytes4) : Word := BitVec.ofNat 32 (lsbN b.toList)

/-- The wire bytes of a command-channel word, `[w[31:24], w[23:16], w[15:8], w[7:0]]` (R134). -/
def bytesMsb (w : Word) : Bytes4 :=
  ⟨w.extractLsb' 24 8, w.extractLsb' 16 8, w.extractLsb' 8 8, w.extractLsb' 0 8⟩

/-! ### The register word -/

/-- `off(r, i)`: the sum of the widths of the fields before field `i` (`10_state.md` R31). -/
def offsetOf (fields : List FieldDesc) (i : Nat) : Nat := totalWidth (fields.take i)

/-- The sum over the fields of `cell << offset`, over the naturals, the first field at bit `off` and
each next one directly above the previous (`40_field_codec.md` R102, R110). -/
def sumCells (off : Nat) : List FieldDesc → List Word → Nat
  | f :: fs, v :: vs => (v.toNat <<< off) + sumCells (off + f.bitWidth) fs vs
  | _, _ => 0

/-- The 32-bit register word of a row of cells (`40_field_codec.md` R102; R110 with its
`& 0xFFFFFFFF`). -/
def registerWord (fields : List FieldDesc) (cells : List Word) : Word :=
  BitVec.ofNat 32 (sumCells 0 fields cells)

/-- Every cell of a row is below `2^bitWidth` of its field, so that no two fields overlap in the packed
word (`70_reset_and_hazards.md` R234). -/
def cellsFit (fields : List FieldDesc) (cells : List Word) : Bool :=
  (fields.zip cells).all fun p => decide (p.2.toNat < 2 ^ p.1.bitWidth)

/-- The word packed from a row of cells (`40_field_codec.md` R102). DESIGN CHOICE (log entry 12): where a
cell is wider than its field the spec gives no word (`70_reset_and_hazards.md` R234,
`93_implementation_defined.md` U1) and the model takes the free value; W5 and the ranges keep every
state of the block from it. -/
def packedWord (fields : List FieldDesc) (cells : List Word) : Word :=
  if cellsFit fields cells then registerWord fields cells else Config.packOverlap fields cells

/-- `(w & mask) >> offset` with `mask = ((1 << bitWidth) - 1) << offset` over the naturals
(`40_field_codec.md` R104, `00_scope.md` R10). -/
def extractField (w : Word) (off width : Nat) : Word :=
  BitVec.ofNat 32 ((w.toNat &&& (((1 <<< width) - 1) <<< off)) >>> off)

/-- The value of every field of a register word, in declaration order, the first field at bit `off`
(`40_field_codec.md` R104). -/
def splitWord (w : Word) (off : Nat) : List FieldDesc → List Word
  | [] => []
  | f :: fs => extractField w off f.bitWidth :: splitWord w (off + f.bitWidth) fs

/-- `RDWORD(r)`: the register word of the `READ` cells (`40_field_codec.md` R110). -/
def State.readWord (s : State) (r : Nat) : Word := registerWord (s.fieldsOf r) (s.readRow r)

end Sys2Proof.Machine
end

