-- ==== Sys2Proof/Machine/Codec.lean ====
section
/-! DEFINITION. The field codec operations `SETFIELD`, `PACK`, `DECODE`, `GETFIELD`
(`40_field_codec.md`). Each is a function from the state to its new state and results or a status,
and a meaning that completes it. -/

namespace Sys2Proof.Machine

/-- `SETFIELD r, i, v` (R100): the location, then the two inclusive unsigned bounds, then the one
write. -/
def setfield (r i : Nat) (v : Word) (s : State) : Except Failure (State × Results) :=
  match resolveField s r i with
  | .error e => .error e
  | .ok f =>
    if v < f.minValue then .error .rangeErr
    else if f.maxValue < v then .error .rangeErr
    else .ok (s.writeSet r i v, .nothing)

/-- The word `PACK r` returns: `RANGE_ERR` for no such register, `EMPTY_ERR` for one with no fields
(R102, R103). In a state no run reaches, whose cells overlap, the word is a free value (`packedWord`,
log entry 12). -/
def packRegister (r : Nat) (s : State) : Except Failure Word :=
  match resolveRegister s r with
  | .error e => .error e
  | .ok g =>
    if g.fields.isEmpty then .error .emptyErr
    else .ok (packedWord g.fields (s.setRow r))

/-- `PACK r` (R102). -/
def pack (r : Nat) (s : State) : Except Failure (State × Results) :=
  match packRegister r s with
  | .error e => .error e
  | .ok w => .ok (s, .word w)

/-- Decodes a word into the `READ` cells of register `r` (R104), which the caller knows to exist. -/
def State.decodeInto (s : State) (r : Nat) (w : Word) : State :=
  s.writeReadRow r (splitWord w 0 (s.fieldsOf r))

/-- `DECODE r, w` (R104): no range validation, an empty register decodes to nothing. -/
def decodeWord (r : Nat) (w : Word) (s : State) : Except Failure (State × Results) :=
  match resolveRegister s r with
  | .error e => .error e
  | .ok _ => .ok (s.decodeInto r w, .nothing)

/-- `GETFIELD r, i` (R108). -/
def getfield (r i : Nat) (s : State) : Except Failure (State × Results) :=
  match resolveField s r i with
  | .error e => .error e
  | .ok _ => .ok (s, .cells (s.setCell r i) (s.readCell r i))

/-- The meaning of `SETFIELD` (R100). -/
def execSetfield (r i : Nat) (v : Word) (s : State) : Result := complete s (setfield r i v s)

/-- The meaning of `PACK` (R102). -/
def execPack (r : Nat) (s : State) : Result := complete s (pack r s)

/-- The meaning of `DECODE` (R104). -/
def execDecode (r : Nat) (w : Word) (s : State) : Result := complete s (decodeWord r w s)

/-- The meaning of `GETFIELD` (R108). -/
def execGetfield (r i : Nat) (s : State) : Result := complete s (getfield r i s)

end Sys2Proof.Machine
end

