-- ==== Sys2Proof/Machine/Command.lean ====
section
/-! DEFINITION. The command-channel operations `MKINSTR`, `BOARDADDR`, `FWVERSION`, `FWDATE`
(`43_command_words.md` part 1). They write no state and cannot fail. -/

namespace Sys2Proof.Machine

/-- The instruction word `a | (m << 8) | (rw << 12)` (R140; the module is ORed into an address that
may carry one, R141). -/
def mkInstr (a : BitVec 12) (m : BitVec 4) (rw : BitVec 1) : Word :=
  a.setWidth 32 ||| (m.setWidth 32 <<< 8) ||| (rw.setWidth 32 <<< 12)

/-- `(~RDWORD(ID_REG)) & 0xF` (R143). -/
def boardAddress (s : State) : BitVec 4 := (~~~ s.readWord s.config.raw.idReg).setWidth 4

/-- The meaning of `MKINSTR` (R140). -/
def execMkinstr (a : BitVec 12) (m : BitVec 4) (rw : BitVec 1) (s : State) : Result :=
  complete s (.ok (s, .word (mkInstr a m rw)))

/-- The meaning of `BOARDADDR` (R143). -/
def execBoardaddr (s : State) : Result := complete s (.ok (s, .addr (boardAddress s)))

/-- The meaning of `FWVERSION` (R144). -/
def execFwversion (s : State) : Result :=
  complete s (.ok (s, .word (s.readWord s.config.raw.fwReg)))

/-- The meaning of `FWDATE` (R145). -/
def execFwdate (s : State) : Result :=
  complete s (.ok (s, .value (s.readCell s.config.raw.fwReg s.config.raw.fwDateIdx)))

end Sys2Proof.Machine
end

