-- ==== Sys2Proof/Machine/Lookup.lean ====
section
/-! DEFINITION. The name map and `LOOKUP` (`41_catalog.md` R123, `10_state.md` R26). -/

namespace Sys2Proof.Machine

/-- `NAMES(n)`: the location of the field named `n`, by exact equality; none when absent
(`10_state.md` R26). By W3 at most one field has the name. -/
def State.nameMap (s : State) (n : String) : Option (Nat × Nat) :=
  (s.config.raw.fieldList.find? fun e => e.field.name == n).map fun e => (e.reg, e.idx)

/-- `LOOKUP n` (R123). -/
def lookup (n : String) (s : State) : Except Failure (State × Results) :=
  match s.nameMap n with
  | none => .error .lookupErr
  | some (r, i) => .ok (s, .location r i)

/-- The meaning of `LOOKUP` (R123). -/
def execLookup (n : String) (s : State) : Result := complete s (lookup n s)

end Sys2Proof.Machine
end

