-- ==== Sys2Proof/Machine/Flags.lean ====
section
/-! DEFINITION. The block has no stored flags or condition codes (`10_state.md` R37). The one bit an
operation computes beside its results is `eor`, the end-of-run check of `PUSH` and `PUSHRAW`
(`44_stream_reassembler.md` R166), which is returned and not kept. -/

namespace Sys2Proof.Machine

/-- `eor`: the last 4 bytes of the chunk as given, LSB-first, equal the marker; a chunk of fewer than
4 bytes has no last 4 bytes and gives 0 (R166 (a), (d)). -/
def endOfRun (marker : Word) (c : List Byte) : Bool :=
  match c.reverse with
  | b3 :: b2 :: b1 :: b0 :: _ => lsb32 ⟨b0, b1, b2, b3⟩ == marker
  | _ => false

end Sys2Proof.Machine
end

