-- ==== Sys2Proof/Machine/Stream.lean ====
section
/-! DEFINITION. The monitoring stream reassembler: `PUSH`, `PUSHRAW`, `RSTSTRM`
(`44_stream_reassembler.md`) and the decode of one monitoring record (`30_encoding.md` R82 to R86). -/

namespace Sys2Proof.Machine

/-- The six words `W0 .. W5` of one record (`30_encoding.md` R82). -/
structure SixWords where
  w0 : Word
  w1 : Word
  w2 : Word
  w3 : Word
  w4 : Word
  w5 : Word
deriving DecidableEq, Repr

/-- One of the words `W0 .. W2` (R84). -/
def headWord (g : SixWords) (k : Fin 3) : Word :=
  match k with
  | 0 => g.w0
  | 1 => g.w1
  | 2 => g.w2

/-- `x(c)`: a component of `width` bits at its place in the record's first three words (R167). -/
def component {width : Nat} (p : Place width) (g : SixWords) : BitVec width :=
  (headWord g p.word).extractLsb' p.pos.val width

/-- `DecodeRecord(W0 .. W5)` (R167): total, it validates nothing (`30_encoding.md` R86). -/
def decodeRecord (layout : RecLayout) (hiPos : ChHiPos) (g : SixWords) : MonitoringRecord :=
  let high := component layout.timestampHigh g
  let low := component layout.timestampLow g
  { ldoOn := component layout.ldoOn g == 1#1
    moduleAddress := component layout.moduleAddress g
    dataType := component layout.dataType g
    timestampHigh := high
    timestampLow := low
    timestamp := (high.setWidth 48 <<< 24) ||| low.setWidth 48
    channel := #v[g.w3.extractLsb' 0 12, g.w3.extractLsb' hiPos.toNat 12,
                  g.w4.extractLsb' 0 12, g.w4.extractLsb' hiPos.toNat 12,
                  g.w5.extractLsb' 0 12, g.w5.extractLsb' hiPos.toNat 12] }

/-- Cuts bytes into LSB-first words from the front; what is left is 0 to 3 bytes (R160 step 1, R162). -/
def cutWords : List Byte → List Word × List Byte
  | b0 :: b1 :: b2 :: b3 :: rest =>
    let p := cutWords rest
    (lsb32 ⟨b0, b1, b2, b3⟩ :: p.1, p.2)
  | rest => ([], rest)

/-- Cuts words into groups of 6 from the front; what is left is 0 to 5 words (R160 step 3, R164). -/
def cutGroups : List Word → List SixWords × List Word
  | w0 :: w1 :: w2 :: w3 :: w4 :: w5 :: rest =>
    let p := cutGroups rest
    (⟨w0, w1, w2, w3, w4, w5⟩ :: p.1, p.2)
  | rest => ([], rest)

/-- Whether a chunk's length is irreconcilable: `CHUNK_MODE = WORD` and `L mod 4 ≠ 0` (R163, R176). -/
def chunkRefused (mode : ChunkMode) (c : List Byte) : Bool :=
  match mode with
  | .byte => false
  | .word => c.length % 4 != 0

/-- The words of the stream a chunk makes available: the carried ones first, then those cut from the
residue and the chunk; and the bytes left over (R160 steps 1 and 2). -/
def streamWords (carry : List Word) (resid c : List Byte) : List Word × List Byte :=
  let b := cutWords (resid ++ c)
  (carry ++ b.1, b.2)

/-- Takes an accepted chunk in: the groups of six words it completes, and the state with the new
`CARRY` and `RESID` (R160, R164, R165). -/
def acceptChunk (c : List Byte) (s : State) : List SixWords × State :=
  let b := streamWords s.carry s.resid c
  let g := cutGroups b.1
  (g.1, s.writeDecoder g.2 b.2)

/-- `PUSH c` (R160). -/
def push (c : List Byte) (s : State) : Except Failure (State × Results) :=
  if chunkRefused s.config.raw.chunkMode c then .error .formatErr
  else
    let a := acceptChunk c s
    .ok (a.2, .records (a.1.map (decodeRecord s.config.raw.recLayout s.config.raw.chHiPos))
      (endOfRun s.config.raw.eorMarker c))

/-- `PUSHRAW c` (R172): the same bookkeeping, no record, the chunk handed back unchanged. -/
def pushraw (c : List Byte) (s : State) : Except Failure (State × Results) :=
  if chunkRefused s.config.raw.chunkMode c then .error .formatErr
  else .ok ((acceptChunk c s).2, .raw c (endOfRun s.config.raw.eorMarker c))

/-- The meaning of `PUSH` (R160). -/
def execPush (c : List Byte) (s : State) : Result := complete s (push c s)

/-- The meaning of `PUSHRAW` (R172). -/
def execPushraw (c : List Byte) (s : State) : Result := complete s (pushraw c s)

/-- The meaning of `RSTSTRM` (R175): `CARRY` and `RESID` emptied, the field value store untouched. -/
def execRststrm (s : State) : Result := complete s (.ok (s.writeDecoder [] [], .nothing))

end Sys2Proof.Machine
end

