-- ==== Sys2Proof/Machine/WordBytes.lean ====
section
/-! DEFINITION. The byte-order operations `WORDMSB`, `BYTESMSB`, `WORDLSB` (`42_word_bytes.md`). They
read and write no state and cannot fail. -/

namespace Sys2Proof.Machine

/-- The meaning of `WORDMSB` (R131). -/
def execWordmsb (b : Bytes4) (s : State) : Result := complete s (.ok (s, .word (msb32 b)))

/-- The meaning of `BYTESMSB` (R134). -/
def execBytesmsb (w : Word) (s : State) : Result := complete s (.ok (s, .bytes4 (bytesMsb w)))

/-- The meaning of `WORDLSB` (R133). -/
def execWordlsb (b : Bytes4) (s : State) : Result := complete s (.ok (s, .word (lsb32 b)))

end Sys2Proof.Machine
end

