-- ==== Sys2Proof/Machine/Dispatch.lean ====
section
/-! DEFINITION. The dispatch: one arm per operation of `30_encoding.md` R72. -/

namespace Sys2Proof.Machine

def exec (i : Instr) (s : State) : Host.Outcome State Fault Refusal :=
  match i with
  | .setfield r j v => Sys2Proof.Machine.execSetfield r j v s
  | .pack r => Sys2Proof.Machine.execPack r s
  | .decode r w => Sys2Proof.Machine.execDecode r w s
  | .getfield r j => Sys2Proof.Machine.execGetfield r j s
  | .lookup n => Sys2Proof.Machine.execLookup n s
  | .wordmsb b => Sys2Proof.Machine.execWordmsb b s
  | .bytesmsb w => Sys2Proof.Machine.execBytesmsb w s
  | .wordlsb b => Sys2Proof.Machine.execWordlsb b s
  | .mkinstr a m rw => Sys2Proof.Machine.execMkinstr a m rw s
  | .boardaddr => Sys2Proof.Machine.execBoardaddr s
  | .fwversion => Sys2Proof.Machine.execFwversion s
  | .fwdate => Sys2Proof.Machine.execFwdate s
  | .push c => Sys2Proof.Machine.execPush c s
  | .pushraw c => Sys2Proof.Machine.execPushraw c s
  | .rststrm => Sys2Proof.Machine.execRststrm s

end Sys2Proof.Machine
end

