-- ==== Sys2Proof/Machine/Step.lean ====
section
/-! DEFINITION. One step: the host issues the next request of its program and the block performs it
completely (`00_scope.md` R5, `20_memory.md` R59, R60); with no request the block is idle
(`70_reset_and_hazards.md` R221). -/

namespace Sys2Proof.Machine

/-- One operation of the block. -/
def step (s : State) : Host.Outcome State Fault Refusal :=
  match fetch s with
  | none => idle s
  | some (q, t) =>
    match decode q with
    | .ok i => exec i t
    | .error e => rejectRequest e t

/-- The state with the request of a table word, zero operands, where `step` takes its next request
from (log entry 3). -/
def State.withFetchWord (s : State) (nbits w : Nat) : State :=
  s.placeRequest (requestOfTableWord nbits w)

end Sys2Proof.Machine
end

