-- ==== Sys2Proof/Machine/Transaction.lean ====
section
/-! DEFINITION. The transaction procedures of the surrounding engine (`43_command_words.md` part 2,
R150 to R155). They are not operations of the block and `step` does not run them
(`00_scope.md` R4 (d)); they are here because they decide when `SET` and `READ` may change. The
transport is an oracle: its answers are arguments, with no law on them; it may also never answer,
which is a hang of the host (R155). Log entry 9 holds what this file chooses. -/

namespace Sys2Proof.Machine

/-- The logical channels of the transport (R150); their numbers are in no source. The procedures
of R151 and R153 use the first two, and no procedure of the spec the others. -/
inductive Endpoint where
  | instrDataWrite
  | ackRead
  | monitorRead
  | eventRead
deriving DecidableEq, Repr

/-- A call of the transport: `Send(endpointId, bytes)` or `Receive(endpointId, maxLength)` (R150). -/
inductive TransportCall where
  | send (endpoint : Endpoint) (bytes : List Byte)
  | receive (endpoint : Endpoint) (maxLength : Nat)
deriving DecidableEq, Repr

/-- The transport's answer to `Send`: a count of bytes sent, an error (R150), or none ever (R155). -/
inductive SendAnswer where
  | sent (count : Nat)
  | error
  | never
deriving DecidableEq, Repr

/-- The transport's answer to `Receive`: bytes, an error (R150), or none ever (R155). -/
inductive ReceiveAnswer where
  | received (bytes : List Byte)
  | error
  | never
deriving DecidableEq, Repr

/-- The answers of the transport during one transaction. -/
structure TransportAnswers where
  sendInstr : SendAnswer
  sendData : SendAnswer
  receive : ReceiveAnswer
deriving DecidableEq, Repr

/-- How a procedure ends. -/
inductive TransactionOutcome where
  /-- `return OK`. -/
  | completed
  /-- `return` of another status. -/
  | failed (e : Failure)
  /-- The host waits for a transport call that never answers; the block is "as it was" at that moment
  and no further operation is issued (R155). -/
  | hung
deriving DecidableEq, Repr

/-- The outcome of a procedure, the state it leaves, and the calls it made of the transport, in order;
the last one is the call that failed or hung where one did. -/
structure TransactionEnd where
  outcome : TransactionOutcome
  state : State
  calls : List TransportCall
deriving DecidableEq, Repr

/-- What a `Send` of `bytes` makes of the procedure: nothing when the transport answered a count not
short of the bytes given, else its end (R150, R155). DEDUCED (log entry 9): a greater count is no
failure, and a `Send` may hang as R155 says of a `Receive`. -/
def sendEnds (bytes : List Byte) (a : SendAnswer) : Option TransactionOutcome :=
  match a with
  | .sent count => if bytes.length ≤ count then none else some (.failed .transportErr)
  | .error => some (.failed .transportErr)
  | .never => some .hung

/-- What a `Receive` of `maxLength` bytes gives the procedure: exactly that many bytes, or its end
(R150, R151, R155). -/
def receiveExactly (maxLength : Nat) (a : ReceiveAnswer) : Except TransactionOutcome (List Byte) :=
  match a with
  | .received bytes =>
    if bytes.length = maxLength then .ok bytes else .error (.failed .transportErr)
  | .error => .error (.failed .transportErr)
  | .never => .error .hung

/-- `MSB32(ack[o .. o+4))` (R130, R152). -/
def msbWordAt (ack : List Byte) (o : Nat) : Word := BitVec.ofNat 32 (msbN ((ack.drop o).take 4))

/-- Decodes an acknowledge pair: bytes `[0..4)`, the header, with `ACK_HDR_REG`, then bytes `[4..8)`,
the data word, with the given register (R151, R152, R153). Where the two registers are one, the later
`DECODE` stays (log entry 9). -/
def State.decodeAck (s : State) (dataReg : Nat) (ack : List Byte) : State :=
  (s.decodeInto s.config.raw.ackHdrReg (msbWordAt ack 0)).decodeInto dataReg (msbWordAt ack 4)

/-- The last part of a transaction (R151, R153): `Receive(ackEndpoint, 8)` after the calls made so far,
and the two `DECODE`s. -/
def receiveAck (dataReg : Nat) (calls : List TransportCall) (a : ReceiveAnswer) (s : State) :
    TransactionEnd :=
  let made := calls ++ [.receive .ackRead 8]
  match receiveExactly 8 a with
  | .error o => ⟨o, s, made⟩
  | .ok ack => ⟨.completed, s.decodeAck dataReg ack, made⟩

/-- The wire bytes of an instruction word that names register `g` of module `m` (R151, R153). -/
def instrBytes (g : RegisterDesc) (m : BitVec 4) (rw : BitVec 1) : Bytes4 :=
  bytesMsb (mkInstr (BitVec.ofNat 12 g.address) m rw)

/-- `WriteTransaction(r, m)` (R151). Instruction and data word go in two sends, as the pseudocode
has it; the prose of R151 leaves one send of 8 bytes open (log entry 9). -/
def writeTransaction (r : Nat) (m : BitVec 4) (tr : TransportAnswers) (s : State) :
    TransactionEnd :=
  match resolveRegister s r with
  | .error e => ⟨.failed e, s, []⟩
  | .ok g =>
    match packRegister r s with
    | .error e => ⟨.failed e, s, []⟩
    | .ok data =>
      let instr := (instrBytes g m 0).toList
      let word := (bytesMsb data).toList
      let sendI := TransportCall.send .instrDataWrite instr
      let sendD := TransportCall.send .instrDataWrite word
      match sendEnds instr tr.sendInstr with
      | some o => ⟨o, s, [sendI]⟩
      | none =>
        match sendEnds word tr.sendData with
        | some o => ⟨o, s, [sendI, sendD]⟩
        | none => receiveAck s.config.raw.ackDataReg [sendI, sendD] tr.receive s

/-- `ReadTransaction(r, m)` (R153): the instruction word alone, with the read bit set; the data word
goes to the register read. With no register `r` there is no address to send, and the procedure
answers `RANGE_ERR` with no I/O (DESIGN CHOICE, log entry 9). -/
def readTransaction (r : Nat) (m : BitVec 4) (tr : TransportAnswers) (s : State) :
    TransactionEnd :=
  match resolveRegister s r with
  | .error e => ⟨.failed e, s, []⟩
  | .ok g =>
    let instr := (instrBytes g m 1).toList
    let sendI := TransportCall.send .instrDataWrite instr
    match sendEnds instr tr.sendInstr with
    | some o => ⟨o, s, [sendI]⟩
    | none => receiveAck r [sendI] tr.receive s

/-- The `set` results of `GETFIELD r, i` for every field index of a list (R154). -/
def readOld (r : Nat) (s : State) : List Nat → Except Failure (List (Nat × Word))
  | [] => .ok []
  | i :: is =>
    match resolveField s r i with
    | .error e => .error e
    | .ok _ =>
      match readOld r s is with
      | .error e => .error e
      | .ok old => .ok ((i, s.setCell r i) :: old)

/-- Issues `SETFIELD r, i, v` for each pair until one fails: how many succeeded, the failure if there
was one, and the state (R154). -/
def setMany (r : Nat) : List (Nat × Word) → State → Nat × Option Failure × State
  | [], s => (0, none, s)
  | (i, v) :: rest, s =>
    match setfield r i v s with
    | .error e => (0, some e, s)
    | .ok (t, _) =>
      let p := setMany r rest t
      (p.1 + 1, p.2)

/-- Issues `SETFIELD r, i, old` for each pair (R154 "restore"). -/
def restore (r : Nat) (old : List (Nat × Word)) (s : State) : State :=
  old.foldl (fun t p =>
    match setfield r p.1 p.2 t with
    | .ok (u, _) => u
    | .error _ => t) s

/-- `WriteFields(r, m, [(i_1, v_1) .. (i_k, v_k)])` (R154): set the fields, write the register, and
put the old values back when anything fails; a hang leaves the new values, unconfirmed (R155). -/
def writeFields (r : Nat) (m : BitVec 4) (pairs : List (Nat × Word)) (tr : TransportAnswers)
    (s : State) : TransactionEnd :=
  match readOld r s (pairs.map (·.1)) with
  | .error e => ⟨.failed e, s, []⟩
  | .ok old =>
    match setMany r pairs s with
    | (n, some e, t) => ⟨.failed e, restore r (old.take n) t, []⟩
    | (_, none, t) =>
      let w := writeTransaction r m tr t
      match w.outcome with
      | .completed => w
      | .failed e => ⟨.failed e, restore r old w.state, w.calls⟩
      | .hung => w

end Sys2Proof.Machine
end

