-- ==== Sys2Proof/Safety.lean ====
section
/-! DEFINITION. The terms claims are stated in: the invariant of the block's state, runs of several
operations, and the functions of a byte stream that the DecoderState and the records are. -/

namespace Sys2Proof.Machine

/-- The invariant of the block: the store has two cells for every field of the catalog and no other
(`10_state.md` R28, R30), every `SET` cell is in its field's range (R29), and the DecoderState keeps
its bounds (R32, R33; R163 in `WORD` mode). Well-formedness of the catalog is in the type of
`State.config`. -/
structure State.Inv (s : State) : Prop where
  setShape : s.setCells.map List.length = s.registers.map fun g => g.fields.length
  readShape : s.readCells.map List.length = s.registers.map fun g => g.fields.length
  setInRange : ∀ e ∈ s.config.raw.fieldList,
    e.field.minValue ≤ s.setCell e.reg e.idx ∧ s.setCell e.reg e.idx ≤ e.field.maxValue
  carryBound : s.carry.length ≤ 5
  residBound : s.resid.length ≤ 3
  wordMode : s.config.raw.chunkMode = .word → s.resid = []

/-- Field `i` of register `r` exists and is `f` (`20_memory.md` R51). -/
def State.HasField (s : State) (r i : Nat) (f : FieldDesc) : Prop :=
  ∃ g, s.registers[r]? = some g ∧ g.fields[i]? = some f

/-- A reserved selector (`30_encoding.md` R74): `0x00`, `0x06` to `0x0F`, `0x13` to `0x17`, `0x1C` to
`0x1F`, `0x23` to `0xFF`. -/
def Reserved (sel : BitVec 8) : Prop :=
  sel = 0x00 ∨ (0x06 ≤ sel ∧ sel ≤ 0x0F) ∨ (0x13 ≤ sel ∧ sel ≤ 0x17) ∨
    (0x1C ≤ sel ∧ sel ≤ 0x1F) ∨ (0x23 ≤ sel ∧ sel ≤ 0xFF)

/-- The operations of the reassembler half. -/
def isStreamInstr : Instr → Bool
  | .push _ | .pushraw _ | .rststrm => true
  | .setfield .. | .pack _ | .decode .. | .getfield .. | .lookup _ | .wordmsb _ | .bytesmsb _
  | .wordlsb _ | .mkinstr .. | .boardaddr | .fwversion | .fwdate => false

/-- The operations that write no state (`20_memory.md` R62). -/
def isPureInstr : Instr → Bool
  | .pack _ | .getfield .. | .lookup _ | .wordmsb _ | .wordlsb _ | .bytesmsb _ | .mkinstr ..
  | .boardaddr | .fwversion | .fwdate => true
  | .setfield .. | .decode .. | .push _ | .pushraw _ | .rststrm => false

/-- The failing statuses each operation can return (`60_exceptions.md` R190). -/
def failuresOf : Instr → List Failure
  | .setfield .. | .decode .. | .getfield .. => [.rangeErr]
  | .pack _ => [.rangeErr, .emptyErr]
  | .lookup _ => [.lookupErr]
  | .push _ | .pushraw _ => [.formatErr]
  | .wordmsb _ | .wordlsb _ | .bytesmsb _ | .mkinstr .. | .boardaddr | .fwversion | .fwdate
  | .rststrm => []

/-- The chunk a reassembler operation takes in (R160, R172). -/
def chunkOf : Instr → Option (List Byte)
  | .push c | .pushraw c => some c
  | .setfield .. | .pack _ | .decode .. | .getfield .. | .lookup _ | .wordmsb _ | .bytesmsb _
  | .wordlsb _ | .mkinstr .. | .boardaddr | .fwversion | .fwdate | .rststrm => none

/-- Runs operations one after another and collects what each hands back; none when one does not end
in a next state. -/
def runInstrs : List Instr → State → Option (State × List Response)
  | [], s => some (s, [])
  | i :: is, s =>
    match exec i s with
    | .next t =>
      match runInstrs is t with
      | some (u, ps) => some (u, t.response.toList ++ ps)
      | none => none
    | .fault _ => none
    | .refused _ => none

/-- The monitoring records a response carries; none but a `PUSH`'s carries any. -/
def responseRecords : Response → List MonitoringRecord
  | .ok (.records rs _) => rs
  | _ => []

/-- The `eor` bit a response carries; none but a `PUSH`'s or a `PUSHRAW`'s carries one. -/
def responseEor : Response → Option Bool
  | .ok (.records _ eor) => some eor
  | .ok (.raw _ eor) => some eor
  | _ => none

/-- The stream of a run with no reset in it: the concatenation of the chunks that `PUSH` and `PUSHRAW`
accepted, status `OK` (`10_state.md` R34). -/
def acceptedStream : List Instr → List Response → List Byte
  | i :: is, p :: ps =>
    (match chunkOf i with
      | some c => if p.code = 0 then c else []
      | none => []) ++ acceptedStream is ps
  | _, _ => []

/-- `LSB32(S[o .. o+4))` (`00_scope.md` R11, `42_word_bytes.md` R132). -/
def wordAt (bytes : List Byte) (o : Nat) : Word := BitVec.ofNat 32 (lsbN ((bytes.drop o).take 4))

/-- The DecoderState is that of the stream `stream` since the last reset (`10_state.md` R34): the residue
is its bytes after the last whole word, the carry its words after the last whole record. -/
structure State.HoldsStream (s : State) (stream : List Byte) : Prop where
  resid : s.resid = stream.drop (4 * (stream.length / 4))
  carryLength : s.carry.length = stream.length / 4 % 6
  carry : ∀ k, k < s.carry.length →
    s.carry[k]? = some (wordAt stream (4 * (6 * (stream.length / 4 / 6) + k)))

/-- The words of a byte stream: `floor(len / 4)` of them, word `n` from bytes `4n .. 4n+3`
(`20_memory.md` R56). -/
def wordsOfStream (bytes : List Byte) : List Word :=
  (List.range (bytes.length / 4)).map fun n => wordAt bytes (4 * n)

/-- Words `6q .. 6q+5` of a word sequence (`20_memory.md` R56). -/
def groupAt (words : List Word) (q : Nat) : SixWords :=
  ⟨(words[6 * q]?).getD 0, (words[6 * q + 1]?).getD 0, (words[6 * q + 2]?).getD 0,
   (words[6 * q + 3]?).getD 0, (words[6 * q + 4]?).getD 0, (words[6 * q + 5]?).getD 0⟩

/-- The records of a word sequence under the state's record layout: `floor(len / 6)` of them. -/
def recordsOfWords (c : Config) (words : List Word) : List MonitoringRecord :=
  (List.range (words.length / 6)).map fun q =>
    decodeRecord c.raw.recLayout c.raw.chHiPos (groupAt words q)

/-- The wire bytes of the end-of-run marker, `[M[7:0], M[15:8], M[23:16], M[31:24]]`
(`30_encoding.md` R87). -/
def markerBytes (marker : Word) : List Byte :=
  [marker.extractLsb' 0 8, marker.extractLsb' 8 8, marker.extractLsb' 16 8, marker.extractLsb' 24 8]

/-- The stream position modulo 24 bytes (`10_state.md` R36). -/
def State.streamPos (s : State) : Nat := 4 * s.carry.length + s.resid.length

end Sys2Proof.Machine
end

