-- ==== Sys2Proof/Certificates/Slice0/Obligations.lean ====
section
/-! DEFINITION. The statements for the provers, from the numbered rules of the spec. A statement about
every state says so of states no run reaches too; where the shape of the store or the bounds of the
DecoderState matter, `State.Inv` is a premise, and `InvIsKeptByEveryStep` and `InvHoldsAtConstruction`
say it holds of every state of the block. -/

open Sys2Proof Sys2Proof.Machine

/-! ### Requests, decoding and the step -/

/-- R70, R72: a request decodes to an instruction exactly when it is that instruction's request. -/
def Obligations.DecodesExactlyTheEncodings : Prop :=
  ∀ (q : Request) (i : Instr), decode q = .ok i ↔ q = encode i

/-- R74: a reserved selector, whatever the operands, fails with `ILLEGAL_OP` and changes nothing; the
decoder calls exactly the selectors of the rule reserved. -/
def Obligations.ReservedSelectorIsIllegalOp : Prop :=
  (∀ q : Request, decode q = .error .reservedSelector ↔ Reserved q.selector) ∧
  ∀ (s : State) (q : Request) (rest : List Request), s.program = q :: rest →
    Reserved q.selector →
    step s = .next (({ s with program := rest } : State).respond (.failed .illegalOp))

/-- R5, R88: the host issues its requests top to bottom, and a step performs the decoded operation of
the first one on the state in which it is issued. The list of requests is the model's own field (log
entry 3). -/
def Obligations.StepRunsTheDecodedInstruction : Prop :=
  ∀ (s : State) (q : Request) (rest : List Request) (i : Instr),
    s.program = q :: rest → decode q = .ok i →
    step s = exec i { s with program := rest }

/-- R221: with no request the block is idle. R70, R71: an entry whose operands are not the list its
selector demands is no request, and the model refuses it (log entry 5, the model's choice). -/
def Obligations.StepWithoutAnInstruction : Prop :=
  (∀ s : State, s.program = [] → step s = .next s) ∧
  ∀ (s : State) (q : Request) (rest : List Request) (m : Mnemonic),
    s.program = q :: rest → decode q = .error (.operandsDoNotFit m) →
    step s = .refused (.operandsDoNotFit m)

/-- R72: one request of each family, written out from the table. -/
def Obligations.SpecRequestsDecode : Prop :=
  decode ⟨0x01, [.regid 0, .fidx 1, .u32 7]⟩ = .ok (.setfield 0 1 7) ∧
  decode ⟨0x05, [.name "g_sel"]⟩ = .ok (.lookup "g_sel") ∧
  decode ⟨0x12, [.bytes4 ⟨0x01, 0x02, 0x03, 0x04⟩]⟩ = .ok (.wordlsb ⟨0x01, 0x02, 0x03, 0x04⟩) ∧
  decode ⟨0x18, [.u12 0x106, .u4 1, .u1 0]⟩ = .ok (.mkinstr 0x106 1 0) ∧
  decode ⟨0x20, [.bytes [0xD3]]⟩ = .ok (.push [0xD3])

/-! ### The field codec -/

/-- R100: `SETFIELD` writes the one cell when the field exists and the value is in its inclusive
range, and fails with `RANGE_ERR`, having written nothing, in every other case. -/
def Obligations.SetfieldWritesOneCellWithinRange : Prop :=
  (∀ (s : State) (r i : Nat) (v : Word) (f : FieldDesc), s.Inv → s.HasField r i f →
    f.minValue ≤ v → v ≤ f.maxValue →
    ∃ t, exec (.setfield r i v) s = .next t ∧ t.response = some (.ok .nothing) ∧
      t.setCell r i = v ∧ (∀ k j, (k, j) ≠ (r, i) → t.setCell k j = s.setCell k j) ∧
      t.setCells.map List.length = s.setCells.map List.length ∧
      t.readCells = s.readCells ∧ t.carry = s.carry ∧ t.resid = s.resid ∧
      t.config = s.config ∧ t.program = s.program) ∧
  ∀ (s : State) (r i : Nat) (v : Word),
    (¬∃ f, s.HasField r i f ∧ f.minValue ≤ v ∧ v ≤ f.maxValue) →
    exec (.setfield r i v) s = .next (s.respond (.failed .rangeErr))

/-- R101: a rejected `SETFIELD` leaves the status and the word of `PACK r` as they were. -/
def Obligations.RangeRejectionLeavesThePackedWord : Prop :=
  ∀ (s t : State) (r i : Nat) (v : Word), exec (.setfield r i v) s = .next t →
    t.response = some (.failed .rangeErr) →
    ∃ a b, exec (.pack r) s = .next a ∧ exec (.pack r) t = .next b ∧ a.response = b.response

/-- R102: `PACK` returns the sum of the shifted `SET` cells, exactly, which is also their bitwise OR,
and writes nothing; it fails with `RANGE_ERR` where there is no such register and with `EMPTY_ERR`
where it has no fields. -/
def Obligations.PackReturnsTheSumOfShiftedCells : Prop :=
  (∀ (s : State) (r : Nat) (g : RegisterDesc), s.Inv → s.registers[r]? = some g → g.fields ≠ [] →
    ∃ w : Word, exec (.pack r) s = .next (s.respond (.ok (.word w))) ∧
      w.toNat = ((List.range g.fields.length).map fun i =>
        (s.setCell r i).toNat <<< offsetOf g.fields i).sum ∧
      w.toNat = (List.range g.fields.length).foldr
        (fun i acc => ((s.setCell r i).toNat <<< offsetOf g.fields i) ||| acc) 0) ∧
  (∀ (s : State) (r : Nat), s.registers[r]? = none →
    exec (.pack r) s = .next (s.respond (.failed .rangeErr))) ∧
  ∀ (s : State) (r : Nat) (g : RegisterDesc), s.registers[r]? = some g → g.fields = [] →
    exec (.pack r) s = .next (s.respond (.failed .emptyErr))

/-- R75, R77: in the word `PACK` returns, field `i` stands at bits
`[off(r,i) + w_i − 1 : off(r,i)]`, and every bit that belongs to no field is 0. -/
def Obligations.PackedFieldsStandAtTheirOffsets : Prop :=
  ∀ (s t : State) (r : Nat) (g : RegisterDesc) (w : Word), s.Inv → s.registers[r]? = some g →
    exec (.pack r) s = .next t → t.response = some (.ok (.word w)) →
    (∀ (i : Nat) (f : FieldDesc) (j : Nat), g.fields[i]? = some f → j < f.bitWidth →
      w.getLsbD (offsetOf g.fields i + j) = (s.setCell r i).getLsbD j) ∧
    ∀ j, totalWidth g.fields ≤ j → w.getLsbD j = false

/-- R104, R105: `DECODE` writes every `READ` cell of the register with its field's bits of the word
and writes nothing else; it fails with `RANGE_ERR` where there is no such register. -/
def Obligations.DecodeWritesEveryReadCell : Prop :=
  (∀ (s : State) (r : Nat) (w : Word) (g : RegisterDesc), s.Inv → s.registers[r]? = some g →
    ∃ t, exec (.decode r w) s = .next t ∧ t.response = some (.ok .nothing) ∧
      (∀ (i : Nat) (f : FieldDesc), g.fields[i]? = some f →
        (t.readCell r i).toNat = w.toNat / 2 ^ offsetOf g.fields i % 2 ^ f.bitWidth) ∧
      (∀ k j, k ≠ r → t.readCell k j = s.readCell k j) ∧
      t.readCells.map List.length = s.readCells.map List.length ∧
      t.setCells = s.setCells ∧ t.carry = s.carry ∧ t.resid = s.resid ∧
      t.config = s.config ∧ t.program = s.program) ∧
  ∀ (s : State) (r : Nat) (w : Word), s.registers[r]? = none →
    exec (.decode r w) s = .next (s.respond (.failed .rangeErr))

/-- R105, R110: `RDWORD(r)` is the sum of the shifted `READ` cells, cut to 32 bits, and after a
`DECODE r, w` it is `w mod 2^Σ bitWidth`, so `w` itself where the fields cover all 32 bits. -/
def Obligations.ReadWordAfterDecode : Prop :=
  (∀ (s : State) (r : Nat) (g : RegisterDesc), s.Inv → s.registers[r]? = some g →
    (s.readWord r).toNat = ((List.range g.fields.length).map fun i =>
      (s.readCell r i).toNat <<< offsetOf g.fields i).sum % 2 ^ 32) ∧
  ∀ (s t : State) (r : Nat) (w : Word) (g : RegisterDesc), s.Inv → s.registers[r]? = some g →
    exec (.decode r w) s = .next t →
    (t.readWord r).toNat = w.toNat % 2 ^ totalWidth g.fields ∧
    (totalWidth g.fields = 32 → t.readWord r = w)

/-- R106: decoding a register's packed word reproduces in `READ` the values of `SET`; and after
`DECODE r, w` the read word agrees with `w` on the bits the fields cover. -/
def Obligations.DecodeOfPackReproducesTheFields : Prop :=
  (∀ (s : State) (r : Nat) (g : RegisterDesc), s.Inv → s.registers[r]? = some g → g.fields ≠ [] →
    ∃ t w u, exec (.pack r) s = .next t ∧ t.response = some (.ok (.word w)) ∧
      exec (.decode r w) t = .next u ∧ u.response = some (.ok .nothing) ∧
      ∀ i, i < g.fields.length → u.readCell r i = u.setCell r i ∧ u.setCell r i = s.setCell r i) ∧
  ∀ (s t : State) (r : Nat) (w : Word) (g : RegisterDesc), s.Inv → s.registers[r]? = some g →
    exec (.decode r w) s = .next t →
    ∀ j, j < totalWidth g.fields → (t.readWord r).getLsbD j = w.getLsbD j

/-- R108: `GETFIELD` returns the two cells of the field and writes nothing; it fails with `RANGE_ERR`
where there is no such location. Before the first `DECODE` of the register the `READ` result is
whatever the cell holds (R42). -/
def Obligations.GetfieldReturnsBothCells : Prop :=
  (∀ (s : State) (r i : Nat) (f : FieldDesc), s.HasField r i f →
    exec (.getfield r i) s =
      .next (s.respond (.ok (.cells (s.setCell r i) (s.readCell r i))))) ∧
  ∀ (s : State) (r i : Nat), (¬∃ f, s.HasField r i f) →
    exec (.getfield r i) s = .next (s.respond (.failed .rangeErr))

/-- R107: the register family has no effect on any operation. -/
def Obligations.FamilyHasNoEffect : Prop :=
  ∀ (s : State) (c : Config) (rs : List RegisterDesc) (i : Instr),
    c.raw = { s.config.raw with registers := rs } →
    rs.map (fun g => (g.address, g.fields)) =
      s.registers.map (fun g => (g.address, g.fields)) →
    ∀ t, exec i s = .next t → exec i { s with config := c } = .next { t with config := c }

/-! ### Lookup -/

/-- R123: `LOOKUP` of a field's name returns its location, and of a name no field has fails with
`LOOKUP_ERR`; it writes nothing. -/
def Obligations.LookupFindsExactlyTheNamedField : Prop :=
  (∀ (s : State) (r i : Nat) (f : FieldDesc), s.HasField r i f →
    exec (.lookup f.name) s = .next (s.respond (.ok (.location r i)))) ∧
  ∀ (s : State) (n : String), (∀ r i f, s.HasField r i f → f.name ≠ n) →
    exec (.lookup n) s = .next (s.respond (.failed .lookupErr))

/-! ### Byte order -/

/-- R130, R131: `WORDMSB` returns the word whose byte `i` stands at bits `8 (3 − i)`. -/
def Obligations.WordmsbIsMostSignificantFirst : Prop :=
  ∀ (b : Bytes4) (s : State),
    exec (.wordmsb b) s = .next (s.respond (.ok (.word
      ((b.b0.setWidth 32 <<< 24) ||| (b.b1.setWidth 32 <<< 16) ||| (b.b2.setWidth 32 <<< 8) |||
        b.b3.setWidth 32))))

/-- R132, R133: `WORDLSB` returns the word whose byte `i` stands at bits `8 i`. -/
def Obligations.WordlsbIsLeastSignificantFirst : Prop :=
  ∀ (b : Bytes4) (s : State),
    exec (.wordlsb b) s = .next (s.respond (.ok (.word
      (b.b0.setWidth 32 ||| (b.b1.setWidth 32 <<< 8) ||| (b.b2.setWidth 32 <<< 16) |||
        (b.b3.setWidth 32 <<< 24)))))

/-- R134: `BYTESMSB` returns `[w[31:24], w[23:16], w[15:8], w[7:0]]`. -/
def Obligations.BytesmsbSplitsTheWord : Prop :=
  ∀ (w : Word) (s : State), ∃ b : Bytes4,
    exec (.bytesmsb w) s = .next (s.respond (.ok (.bytes4 b))) ∧
      b.b0.toNat = w.toNat / 2 ^ 24 ∧ b.b1.toNat = w.toNat / 2 ^ 16 % 256 ∧
      b.b2.toNat = w.toNat / 2 ^ 8 % 256 ∧ b.b3.toNat = w.toNat % 256

/-- R135: the laws of the two byte orders. -/
def Obligations.ByteOrderLaws : Prop :=
  (∀ w : Word, msb32 (bytesMsb w) = w) ∧ (∀ b : Bytes4, bytesMsb (msb32 b) = b) ∧
  (∀ b : Bytes4, lsb32 b = msb32 b.reverse) ∧
  ∀ b : Bytes4, msb32 b = lsb32 b ↔ b.b0 = b.b3 ∧ b.b1 = b.b2

/-! ### The command channel -/

/-- R78, R140, R141: the instruction word holds the register offset in bits `[7:0]`, the OR of the
address's module bits and the module in `[11:8]`, the read bit in `[12]`, and 0 in `[31:13]`. -/
def Obligations.MkinstrBuildsTheInstructionWord : Prop :=
  ∀ (a : BitVec 12) (m : BitVec 4) (rw : BitVec 1) (s : State), ∃ w : Word,
    exec (.mkinstr a m rw) s = .next (s.respond (.ok (.word w))) ∧
      w.extractLsb' 0 8 = a.extractLsb' 0 8 ∧ w.extractLsb' 8 4 = (a.extractLsb' 8 4 ||| m) ∧
      w.extractLsb' 12 1 = rw ∧ w.extractLsb' 13 19 = 0

/-- R143: `BOARDADDR` returns 15 minus the low 4 bits of the identification register's read word, and
writes nothing. -/
def Obligations.BoardaddrComplementsTheLowNibble : Prop :=
  ∀ s : State, ∃ a : BitVec 4, exec .boardaddr s = .next (s.respond (.ok (.addr a))) ∧
    a.toNat = 15 - (s.readWord s.config.raw.idReg).toNat % 16

/-- R144, R145: `FWVERSION` returns the firmware register's read word and `FWDATE` its date field's
`READ` cell; they write nothing. -/
def Obligations.FirmwareAccessorsReturnTheReadCells : Prop :=
  ∀ s : State,
    exec .fwversion s = .next (s.respond (.ok (.word (s.readWord s.config.raw.fwReg)))) ∧
    exec .fwdate s = .next
      (s.respond (.ok (.value (s.readCell s.config.raw.fwReg s.config.raw.fwDateIdx))))

/-- R143 to R145 with R105: what the accessors return after a `DECODE` of their register. -/
def Obligations.AccessorsAfterDecode : Prop :=
  ∀ (s t : State) (w : Word), s.Inv →
    (exec (.decode s.config.raw.idReg w) s = .next t →
      4 ≤ totalWidth (s.fieldsOf s.config.raw.idReg) →
      ∃ a : BitVec 4, exec .boardaddr t = .next (t.respond (.ok (.addr a))) ∧
        a.toNat = 15 - w.toNat % 16) ∧
    (exec (.decode s.config.raw.fwReg w) s = .next t →
      (totalWidth (s.fieldsOf s.config.raw.fwReg) = 32 →
        exec .fwversion t = .next (t.respond (.ok (.word w)))) ∧
      ∃ f v, s.HasField s.config.raw.fwReg s.config.raw.fwDateIdx f ∧
        exec .fwdate t = .next (t.respond (.ok (.value v))) ∧
        v.toNat = w.toNat / 2 ^ offsetOf (s.fieldsOf s.config.raw.fwReg) s.config.raw.fwDateIdx
          % 2 ^ f.bitWidth)

/-! ### The reassembler -/

/-- R160, R162, R164: an accepted `PUSH` cuts `RESID ++ c` into LSB-first words at multiples of 4,
puts the carried words before them, returns the record of every whole group of 6, keeps the words and
bytes left over, and checks the last 4 bytes of the chunk; the field value store is untouched. A
chunk `CHUNK_MODE` refuses fails with `FORMAT_ERR`, nothing written. -/
def Obligations.PushCutsWordsAndRecords : Prop :=
  (∀ (s : State) (c : List Byte), s.config.raw.chunkMode = .word → c.length % 4 ≠ 0 →
    exec (.push c) s = .next (s.respond (.failed .formatErr))) ∧
  ∀ (s : State) (c : List Byte),
    ¬(s.config.raw.chunkMode = .word ∧ c.length % 4 ≠ 0) →
    let b := s.resid ++ c
    let ws := s.carry ++ wordsOfStream b
    ∃ t, exec (.push c) s = .next t ∧
      t.response = some (.ok (.records (recordsOfWords s.config ws)
        (decide (4 ≤ c.length ∧ wordAt c (c.length - 4) = s.config.raw.eorMarker)))) ∧
      t.carry = ws.drop (6 * (ws.length / 6)) ∧ t.resid = b.drop (4 * (b.length / 4)) ∧
      t.setCells = s.setCells ∧ t.readCells = s.readCells ∧ t.config = s.config ∧
      t.program = s.program

/-- R165, R168: the number of records a `PUSH` returns and the lengths of the new `CARRY` and
`RESID`. -/
def Obligations.PushCountsRecordsWordsAndBytes : Prop :=
  ∀ (s t : State) (c : List Byte) (rs : List MonitoringRecord) (eor : Bool),
    exec (.push c) s = .next t → t.response = some (.ok (.records rs eor)) →
    rs.length = (s.carry.length + (s.resid.length + c.length) / 4) / 6 ∧
    t.carry.length = (s.carry.length + (s.resid.length + c.length) / 4) % 6 ∧
    t.resid.length = (s.resid.length + c.length) % 4

/-- R163, R176: `FORMAT_ERR` is returned exactly by `PUSH` and `PUSHRAW` in `CHUNK_MODE = WORD` on a
chunk whose length is not a multiple of 4, and then nothing is written. -/
def Obligations.FormatErrorExactlyOnRaggedChunks : Prop :=
  ∀ (s t : State) (i : Instr), exec i s = .next t →
    (t.response = some (.failed .formatErr) ↔
      s.config.raw.chunkMode = .word ∧ ∃ c, chunkOf i = some c ∧ c.length % 4 ≠ 0) ∧
    (t.response = some (.failed .formatErr) → t = s.respond (.failed .formatErr))

/-- R166: `eor` is 1 exactly when the chunk has at least 4 bytes and its last 4, LSB-first, equal the
marker; and the marker alters neither `CARRY` nor `RESID` nor the records. -/
def Obligations.EndOfRunIsTheLastFourBytesOfTheChunk : Prop :=
  (∀ (s t : State) (c : List Byte) (rs : List MonitoringRecord) (eor : Bool),
    exec (.push c) s = .next t → t.response = some (.ok (.records rs eor)) →
    (eor = true ↔ 4 ≤ c.length ∧ wordAt c (c.length - 4) = s.config.raw.eorMarker)) ∧
  ∀ (s t u : State) (d : Config) (m : Word) (c : List Byte) (rs : List MonitoringRecord)
    (eor : Bool), d.raw = { s.config.raw with eorMarker := m } →
    exec (.push c) s = .next t → t.response = some (.ok (.records rs eor)) →
    exec (.push c) { s with config := d } = .next u →
    (∃ eor', u.response = some (.ok (.records rs eor'))) ∧ u.carry = t.carry ∧ u.resid = t.resid

/-- R83, R84, R85, R167: the components of a decoded record, for every layout and every position of
the odd channels. -/
def Obligations.DecodeRecordExtractsTheComponents : Prop :=
  ∀ (l : RecLayout) (p : ChHiPos) (g : SixWords),
    let x := decodeRecord l p g
    let word := fun k : Fin 3 => if k = 0 then g.w0 else if k = 1 then g.w1 else g.w2
    (x.ldoOn = true ↔ (word l.ldoOn.word).toNat / 2 ^ l.ldoOn.pos.val % 2 = 1) ∧
    x.moduleAddress.toNat =
      (word l.moduleAddress.word).toNat / 2 ^ l.moduleAddress.pos.val % 2 ^ 4 ∧
    x.dataType.toNat = (word l.dataType.word).toNat / 2 ^ l.dataType.pos.val % 2 ^ 2 ∧
    x.timestampHigh.toNat =
      (word l.timestampHigh.word).toNat / 2 ^ l.timestampHigh.pos.val % 2 ^ 24 ∧
    x.timestampLow.toNat =
      (word l.timestampLow.word).toNat / 2 ^ l.timestampLow.pos.val % 2 ^ 24 ∧
    x.timestamp.toNat = x.timestampHigh.toNat * 2 ^ 24 + x.timestampLow.toNat ∧
    x.channel.toList.map BitVec.toNat =
      [g.w3.toNat % 2 ^ 12, g.w3.toNat / 2 ^ p.toNat % 2 ^ 12,
       g.w4.toNat % 2 ^ 12, g.w4.toNat / 2 ^ p.toNat % 2 ^ 12,
       g.w5.toNat % 2 ^ 12, g.w5.toNat / 2 ^ p.toNat % 2 ^ 12]

/-- R172: an accepted `PUSHRAW` returns the chunk unchanged and the `eor` of the same `PUSH`, and
leaves exactly the state that `PUSH` leaves; it fails exactly when `PUSH` does. -/
def Obligations.PushrawKeepsTheBooksOfPush : Prop :=
  (∀ (s : State) (c : List Byte),
    ¬(s.config.raw.chunkMode = .word ∧ c.length % 4 ≠ 0) →
    ∃ (t : State) (rs : List MonitoringRecord) (eor : Bool),
      exec (.push c) s = .next (t.respond (.ok (.records rs eor))) ∧
      exec (.pushraw c) s = .next (t.respond (.ok (.raw c eor))) ∧
      t.setCells = s.setCells ∧ t.readCells = s.readCells ∧ t.config = s.config ∧
      t.program = s.program) ∧
  ∀ (s : State) (c : List Byte), s.config.raw.chunkMode = .word → c.length % 4 ≠ 0 →
    exec (.pushraw c) s = .next (s.respond (.failed .formatErr))

/-- R175: `RSTSTRM` empties `CARRY` and `RESID` and leaves everything else; a second one changes
nothing. -/
def Obligations.RststrmEmptiesTheDecoder : Prop :=
  ∀ s : State, ∃ t, exec .rststrm s = .next t ∧ t.response = some (.ok .nothing) ∧
    t.carry = [] ∧ t.resid = [] ∧ t.setCells = s.setCells ∧ t.readCells = s.readCells ∧
    t.config = s.config ∧ t.program = s.program ∧ exec .rststrm t = .next t

/-- R180: split-invariance. In `BYTE` mode, from an empty DecoderState, pushing the chunks of a stream
one by one returns the records and leaves the DecoderState of pushing the stream at once, and those
records are the records of the stream's words; in `WORD` mode the same holds for chunks that are
multiples of 4 bytes, and any other split fails at its first such chunk. -/
def Obligations.RecordsDoNotDependOnTheSplit : Prop :=
  (∀ (s : State) (chunks : List (List Byte)), s.carry = [] → s.resid = [] →
    (s.config.raw.chunkMode = .byte ∨ ∀ c ∈ chunks, c.length % 4 = 0) →
    ∃ t ps u p, runInstrs (chunks.map .push) s = some (t, ps) ∧
      exec (.push chunks.flatten) s = .next u ∧ u.response = some p ∧
      ps.flatMap responseRecords = responseRecords p ∧
      responseRecords p = recordsOfWords s.config (wordsOfStream chunks.flatten) ∧
      t.carry = u.carry ∧ t.resid = u.resid) ∧
  ∀ (s : State) (before : List (List Byte)) (c : List Byte), s.carry = [] → s.resid = [] →
    s.config.raw.chunkMode = .word → (∀ b ∈ before, b.length % 4 = 0) → c.length % 4 ≠ 0 →
    ∃ t ps, runInstrs (before.map .push) s = some (t, ps) ∧
      (∀ p ∈ ps, p ≠ .failed .formatErr) ∧
      exec (.push c) t = .next (t.respond (.failed .formatErr))

/-- R181: the sentinel property under its premises. `CHUNK_MODE` accepts every chunk, and none
before the last ends in the marker bytes; if the last has at least 4 bytes and the stream ends in the
marker bytes, exactly the last `PUSH` reports `eor = 1`; if the last does not end in them either,
none does. -/
def Obligations.SentinelIsReportedOnceOnItsChunk : Prop :=
  ∀ (s : State) (before : List (List Byte)) (last : List Byte),
    (s.config.raw.chunkMode = .byte ∨ ∀ c ∈ before ++ [last], c.length % 4 = 0) →
    (∀ c ∈ before, ¬markerBytes s.config.raw.eorMarker <:+ c) →
    ∃ t ps, runInstrs ((before ++ [last]).map .push) s = some (t, ps) ∧
      (4 ≤ last.length → markerBytes s.config.raw.eorMarker <:+ (before ++ [last]).flatten →
        ps.map responseEor = before.map (fun _ => some false) ++ [some true]) ∧
      (¬markerBytes s.config.raw.eorMarker <:+ last →
        ps.map responseEor = (before ++ [last]).map fun _ => some false)

/-- R34: from an empty DecoderState, after any operations but `RSTSTRM`, `CARRY` and `RESID` are the
stated functions of the stream, the concatenation of the chunks accepted so far. -/
def Obligations.DecoderStateIsAFunctionOfTheStream : Prop :=
  ∀ (s t : State) (is : List Instr) (ps : List Response), s.carry = [] → s.resid = [] →
    .rststrm ∉ is → runInstrs is s = some (t, ps) →
    let stream := acceptedStream is ps
    let q := stream.length / 4 / 6
    t.resid.length = stream.length % 4 ∧ t.resid = stream.drop (4 * (stream.length / 4)) ∧
    t.carry.length = stream.length / 4 % 6 ∧
    ∀ k, k < t.carry.length → t.carry[k]? = some (wordAt stream (4 * (6 * q + k)))

/-- R36, R182: after any operations but `RSTSTRM` that accepted `T` bytes in all, the stream position is
`T mod 24`, and if no `PUSHRAW` was among them `PUSH` returned `floor(T / 24)` records. -/
def Obligations.NoByteIsLostOrUsedTwice : Prop :=
  ∀ (s t : State) (is : List Instr) (ps : List Response), s.carry = [] → s.resid = [] →
    .rststrm ∉ is → runInstrs is s = some (t, ps) →
    t.streamPos = (acceptedStream is ps).length % 24 ∧
    ((∀ c, .pushraw c ∉ is) →
      (ps.flatMap responseRecords).length = (acceptedStream is ps).length / 24)

/-! ### Statuses, frames and whole-machine rules -/

/-- R73, R190, R201: every operation ends in a next state with exactly one response. -/
def Obligations.EveryOperationAnswers : Prop :=
  ∀ (i : Instr) (s : State), ∃ t p, exec i s = .next t ∧ t.response = some p

/-- R190: which failing statuses each operation can return; `TRANSPORT_ERR` and `ILLEGAL_OP` are
returned by none. -/
def Obligations.StatusesOfEachOperation : Prop :=
  ∀ (i : Instr) (s t : State) (e : Failure), exec i s = .next t →
    t.response = some (.failed e) →
    e ∈ failuresOf i ∧ e ≠ .transportErr ∧ e ≠ .illegalOp

/-- R191: the causes of `RANGE_ERR`, operation by operation, and that nothing is recorded. -/
def Obligations.RangeErrorCauses : Prop :=
  ∀ (i : Instr) (s t : State), exec i s = .next t →
    (t.response = some (.failed .rangeErr) ↔
      match i with
      | .setfield r j v => ¬∃ f, s.HasField r j f ∧ f.minValue ≤ v ∧ v ≤ f.maxValue
      | .getfield r j => ¬∃ f, s.HasField r j f
      | .pack r => s.registers.length ≤ r
      | .decode r _ => s.registers.length ≤ r
      | _ => False) ∧
    (t.response = some (.failed .rangeErr) → t = s.respond (.failed .rangeErr))

/-- R195: an operation that returns a status other than `OK` leaves the state bit for bit as it was;
only the response to the host is new. -/
def Obligations.FailureLeavesNoTrace : Prop :=
  (∀ (i : Instr) (s t : State) (e : Failure), exec i s = .next t →
    t.response = some (.failed e) → t = s.respond (.failed e)) ∧
  ∀ (s t : State) (q : Request) (rest : List Request) (e : Failure), s.program = q :: rest →
    step s = .next t → t.response = some (.failed e) →
    t = ({ s with program := rest } : State).respond (.failed e)

/-- R28, R32, R33: `SET` is written only by `SETFIELD`, `READ` only by `DECODE`, `CARRY` and `RESID`
only by `PUSH`, `PUSHRAW` and `RSTSTRM`; the configuration and the host's list of requests by none. -/
def Obligations.WhoWritesEachPieceOfState : Prop :=
  ∀ (i : Instr) (s t : State), exec i s = .next t →
    (t.setCells ≠ s.setCells → ∃ r j v, i = .setfield r j v) ∧
    (t.readCells ≠ s.readCells → ∃ r w, i = .decode r w) ∧
    (t.carry ≠ s.carry ∨ t.resid ≠ s.resid → isStreamInstr i = true) ∧
    t.config = s.config ∧ t.program = s.program

/-- R30: no step adds, removes, reorders, renames or resizes a field or a register. -/
def Obligations.ShapeIsImmutable : Prop :=
  ∀ s t : State, s.Inv → step s = .next t →
    t.config = s.config ∧ t.setCells.map List.length = s.setCells.map List.length ∧
    t.readCells.map List.length = s.readCells.map List.length

/-- R62: the operations that write no state; the writers that are idempotent; and that `PUSH` and
`PUSHRAW` are not. -/
def Obligations.PureIdempotentAndConsumingOperations : Prop :=
  (∀ (i : Instr) (s t : State), isPureInstr i = true → exec i s = .next t →
    (∃ p, t = s.respond p) ∧ exec i t = .next t) ∧
  (∀ (i : Instr) (s t : State), s.Inv →
    ((∃ r j v, i = .setfield r j v) ∨ (∃ r w, i = .decode r w) ∨ i = .rststrm) →
    exec i s = .next t → exec i t = .next t) ∧
  (∃ (c : List Byte) (s t u : State), s.Inv ∧ exec (.push c) s = .next t ∧
    exec (.push c) t = .next u ∧ u.resid ≠ t.resid) ∧
  ∃ (c : List Byte) (s t u : State), s.Inv ∧ exec (.pushraw c) s = .next t ∧
    exec (.pushraw c) t = .next u ∧ u.resid ≠ t.resid

/-- R61: the codec half neither reads nor writes the DecoderState, and the reassembler half neither
reads nor writes the field value store. -/
def Obligations.TheTwoHalvesShareNoState : Prop :=
  (∀ (i : Instr) (s t : State) (ws : List Word) (bs : List Byte), isStreamInstr i = false →
    exec i s = .next t →
    t.carry = s.carry ∧ t.resid = s.resid ∧
    exec i (s.writeDecoder ws bs) = .next (t.writeDecoder ws bs)) ∧
  ∀ (i : Instr) (s t : State) (a b : List (List Word)), isStreamInstr i = true →
    exec i s = .next t →
    t.setCells = s.setCells ∧ t.readCells = s.readCells ∧
    exec i { s with setCells := a, readCells := b } =
      .next { t with setCells := a, readCells := b }

/-- R37: no operation's behaviour depends on the status or `eor` of an earlier one. -/
def Obligations.EarlierResponsesAreNotRead : Prop :=
  ∀ (i : Instr) (s : State) (p : Option Response), exec i { s with response := p } = exec i s

/-- R60 (a): `GETFIELD` after `SETFIELD r, i, v` returning `OK`, with any operations between but no
`SETFIELD r, i`, returns `set = v`. -/
def Obligations.GetfieldSeesTheLatestSetfield : Prop :=
  ∀ (s t u : State) (r i : Nat) (v : Word) (between : List Instr) (ps : List Response), s.Inv →
    exec (.setfield r i v) s = .next t → t.response = some (.ok .nothing) →
    (∀ v', .setfield r i v' ∉ between) → runInstrs between t = some (u, ps) →
    ∃ x, exec (.getfield r i) u = .next (u.respond (.ok (.cells v x)))

/-! ### Invariant, construction and reset -/

/-- R29, R30, R32, R33: every step keeps the invariant. -/
def Obligations.InvIsKeptByEveryStep : Prop :=
  ∀ s t : State, s.Inv → step s = .next t → t.Inv

/-- R29, R43: the invariant holds of the block right after construction, for every well-formed
configuration, and so of the reset state. -/
def Obligations.InvHoldsAtConstruction : Prop :=
  (∀ c : Config, (State.ofConfig c).Inv) ∧ State.reset.Inv

/-- R24, R25: construction yields a block for exactly the configurations that satisfy W1 to W9, and
names a failed condition for any other. That every role parameter is there, so that W9 applies to each,
is the model's choice (log entry 6), as is which failure is named first (log entry 8). -/
def Obligations.ConstructionChecksEveryCondition : Prop :=
  (∀ raw : RawConfig, (∃ s, construct raw = .ok s) ↔
    (∀ (r i : Nat) (g : RegisterDesc) (f : FieldDesc), raw.registers[r]? = some g →
      g.fields[i]? = some f →
      1 ≤ f.bitWidth ∧ f.bitWidth ≤ 32 ∧ f.minValue ≤ f.maxValue ∧
      f.maxValue.toNat ≤ 2 ^ f.bitWidth - 1 ∧ f.minValue ≤ f.defaultValue ∧
      f.defaultValue ≤ f.maxValue ∧ (g.family = .monitor → f.defaultValue = 0)) ∧
    (∀ g ∈ raw.registers, totalWidth g.fields ≤ 32 ∧ g.address ≤ 4095) ∧
    (∀ (r i r' i' : Nat) (g g' : RegisterDesc) (f f' : FieldDesc),
      raw.registers[r]? = some g → g.fields[i]? = some f →
      raw.registers[r']? = some g' → g'.fields[i']? = some f' →
      f.name = f'.name → r = r' ∧ i = i') ∧
    raw.idReg < raw.registers.length ∧ raw.fwReg < raw.registers.length ∧
    (∃ g, raw.registers[raw.fwReg]? = some g ∧ raw.fwDateIdx < g.fields.length) ∧
    (∃ g, raw.registers[raw.ackHdrReg]? = some g ∧ g.fields.map (·.bitWidth) = [32]) ∧
    ∃ g, raw.registers[raw.ackDataReg]? = some g ∧ g.fields.length = 1) ∧
  ∀ (raw : RawConfig) (d : Defect), construct raw = .error d → d.culprit ∈ raw.culprits d.condition

/-- R40, R41, R43: after construction every `SET` cell is its field's default and the DecoderState is
empty. -/
def Obligations.ConstructionLoadsTheDefaults : Prop :=
  ∀ (raw : RawConfig) (s : State), construct raw = .ok s →
    s.config.raw = raw ∧ s.carry = [] ∧ s.resid = [] ∧
    ∀ (r i : Nat) (f : FieldDesc), s.HasField r i f → s.setCell r i = f.defaultValue

/-- R40, R41, R43 of the reset state, whose configuration is the unknown one of the board (log
entry 2). -/
def Obligations.ResetStateHoldsTheDefaults : Prop :=
  State.reset.carry = [] ∧ State.reset.resid = [] ∧
  ∀ (r i : Nat) (f : FieldDesc), State.reset.HasField r i f →
    State.reset.setCell r i = f.defaultValue

/-- R34 as one step: whatever stream the DecoderState is that of, `RSTSTRM` leaves the DecoderState of
the empty stream and every other operation that of the stream with the chunk it accepted after it;
and right after construction it is that of the empty stream. -/
def Obligations.EveryOperationExtendsTheStream : Prop :=
  (∀ (s t : State) (stream : List Byte) (i : Instr), s.HoldsStream stream → exec i s = .next t →
    (i = .rststrm → t.HoldsStream []) ∧
    (i ≠ .rststrm → t.HoldsStream (stream ++ acceptedStream [i] t.response.toList))) ∧
  ∀ c : Config, (State.ofConfig c).HoldsStream []

/-! ### The transaction boundary -/

/-- R150, R151, R152: a write transaction whose sends succeed and whose answer is 8 bytes sends the
instruction word with the write bit and the packed word, MSB-first, calls `Receive` on the
acknowledge endpoint for 8 bytes, and decodes the two acknowledge words in that order; `SET`, `CARRY`
and `RESID` are untouched. Three points are the model's, of log entry 9: two sends of 4 bytes (the
prose of R151 leaves one of 8 open), that a count above the bytes given succeeds (DEDUCED), and, where
`ACK_HDR_REG` and `ACK_DATA_REG` are one register, that the order of R151's `DECODE`s stands against
the plain sentence of R152 and the register holds the data word (DEDUCED). -/
def Obligations.WriteTransactionSendsAndDecodes : Prop :=
  ∀ (s : State) (r : Nat) (m : BitVec 4) (g : RegisterDesc) (n k : Nat)
    (h0 h1 h2 h3 d0 d1 d2 d3 : Byte), s.Inv → s.registers[r]? = some g → g.fields ≠ [] →
    4 ≤ n → 4 ≤ k →
    ∃ t data, exec (.pack r) s = .next (s.respond (.ok (.word data))) ∧
      writeTransaction r m ⟨.sent n, .sent k, .received [h0, h1, h2, h3, d0, d1, d2, d3]⟩ s =
        ⟨.completed, t,
          [.send .instrDataWrite (bytesMsb (mkInstr (BitVec.ofNat 12 g.address) m 0)).toList,
           .send .instrDataWrite (bytesMsb data).toList, .receive .ackRead 8]⟩ ∧
      t.readCell s.config.raw.ackHdrReg 0 =
        (if s.config.raw.ackHdrReg = s.config.raw.ackDataReg then msb32 ⟨d0, d1, d2, d3⟩
         else msb32 ⟨h0, h1, h2, h3⟩) ∧
      (∀ f, s.HasField s.config.raw.ackDataReg 0 f →
        (t.readCell s.config.raw.ackDataReg 0).toNat =
          (msb32 ⟨d0, d1, d2, d3⟩).toNat % 2 ^ f.bitWidth) ∧
      (∀ q i, q ≠ s.config.raw.ackHdrReg → q ≠ s.config.raw.ackDataReg →
        t.readCell q i = s.readCell q i) ∧
      t.setCells = s.setCells ∧ t.carry = s.carry ∧ t.resid = s.resid ∧ t.config = s.config

/-- R150, R152, R153: a read transaction whose send succeeds and whose answer is 8 bytes sends the
instruction word alone, with the read bit set, calls `Receive` on the acknowledge endpoint for 8
bytes, and decodes the header word into `ACK_HDR_REG` and then the data word into the register read;
and no read transaction touches `SET`. Three points are the model's, of log entry 9: that a count
above the bytes given succeeds (DEDUCED), that the register holds the data word where the register
read is `ACK_HDR_REG` (DEDUCED), and that the last clause holds of a register that does not exist
(DESIGN CHOICE). -/
def Obligations.ReadTransactionDecodesTheTarget : Prop :=
  (∀ (s : State) (r : Nat) (m : BitVec 4) (g : RegisterDesc) (n : Nat) (a : SendAnswer)
    (h0 h1 h2 h3 d0 d1 d2 d3 : Byte), s.Inv → s.registers[r]? = some g → 4 ≤ n →
    ∃ t, readTransaction r m ⟨.sent n, a, .received [h0, h1, h2, h3, d0, d1, d2, d3]⟩ s =
        ⟨.completed, t,
          [.send .instrDataWrite (bytesMsb (mkInstr (BitVec.ofNat 12 g.address) m 1)).toList,
           .receive .ackRead 8]⟩ ∧
      (∀ (i : Nat) (f : FieldDesc), g.fields[i]? = some f →
        (t.readCell r i).toNat =
          (msb32 ⟨d0, d1, d2, d3⟩).toNat / 2 ^ offsetOf g.fields i % 2 ^ f.bitWidth) ∧
      (s.config.raw.ackHdrReg ≠ r →
        t.readCell s.config.raw.ackHdrReg 0 = msb32 ⟨h0, h1, h2, h3⟩) ∧
      (∀ q i, q ≠ s.config.raw.ackHdrReg → q ≠ r → t.readCell q i = s.readCell q i) ∧
      t.carry = s.carry ∧ t.resid = s.resid ∧ t.config = s.config) ∧
  ∀ (s : State) (r : Nat) (m : BitVec 4) (tr : TransportAnswers),
    (readTransaction r m tr s).state.setCells = s.setCells

/-- R154, R155: a write or read transaction that does not complete leaves the state as it was; a
failed field write leaves every cell as it was; a completed one leaves all the new values; and one
whose host waits for ever leaves the new `SET` values and the old `READ` cells. For every answer of
the transport, the model's points of log entry 9 among them: a `Send` that never answers hangs, where
R155 speaks of a `Receive`, and a count above the bytes given succeeds (both DEDUCED); a read
transaction of a register that does not exist fails with no I/O (DESIGN CHOICE). -/
def Obligations.FailedTransactionsLeaveNoTrace : Prop :=
  (∀ (s : State) (r : Nat) (m : BitVec 4) (tr : TransportAnswers),
    (writeTransaction r m tr s).outcome ≠ .completed → (writeTransaction r m tr s).state = s) ∧
  (∀ (s : State) (r : Nat) (m : BitVec 4) (tr : TransportAnswers),
    (readTransaction r m tr s).outcome ≠ .completed → (readTransaction r m tr s).state = s) ∧
  (∀ (s : State) (r : Nat) (m : BitVec 4) (pairs : List (Nat × Word)) (tr : TransportAnswers)
    (e : Failure), s.Inv → (writeFields r m pairs tr s).outcome = .failed e →
    (writeFields r m pairs tr s).state = s) ∧
  ∀ (s : State) (r : Nat) (m : BitVec 4) (pairs : List (Nat × Word)) (tr : TransportAnswers),
    s.Inv → (pairs.map (·.1)).Nodup → (∀ e, (writeFields r m pairs tr s).outcome ≠ .failed e) →
    (∀ p ∈ pairs, (writeFields r m pairs tr s).state.setCell r p.1 = p.2) ∧
    ((writeFields r m pairs tr s).outcome = .hung →
      (writeFields r m pairs tr s).state.readCells = s.readCells)
end

