-- ==== Sys2Proof/Laws/State.lean ====
section
/-! SUPPORT. One lemma for each field under each update of the state, so that no proof unfolds a
record update. -/

namespace Sys2Proof.Machine

@[simp] theorem State.writeSet_config (s : State) (r i : Nat) (v : Word) :
    (s.writeSet r i v).config = s.config := rfl

@[simp] theorem State.writeSet_readCells (s : State) (r i : Nat) (v : Word) :
    (s.writeSet r i v).readCells = s.readCells := rfl

@[simp] theorem State.writeSet_carry (s : State) (r i : Nat) (v : Word) :
    (s.writeSet r i v).carry = s.carry := rfl

@[simp] theorem State.writeSet_resid (s : State) (r i : Nat) (v : Word) :
    (s.writeSet r i v).resid = s.resid := rfl

@[simp] theorem State.writeSet_program (s : State) (r i : Nat) (v : Word) :
    (s.writeSet r i v).program = s.program := rfl

@[simp] theorem State.writeSet_response (s : State) (r i : Nat) (v : Word) :
    (s.writeSet r i v).response = s.response := rfl

@[simp] theorem State.writeSet_registers (s : State) (r i : Nat) (v : Word) :
    (s.writeSet r i v).registers = s.registers := rfl

@[simp] theorem State.writeSet_fieldsOf (s : State) (r i : Nat) (v : Word) (k : Nat) :
    (s.writeSet r i v).fieldsOf k = s.fieldsOf k := rfl

@[simp] theorem State.writeSet_readCell (s : State) (r i : Nat) (v : Word) (k j : Nat) :
    (s.writeSet r i v).readCell k j = s.readCell k j := rfl

@[simp] theorem State.writeReadRow_config (s : State) (r : Nat) (row : List Word) :
    (s.writeReadRow r row).config = s.config := rfl

@[simp] theorem State.writeReadRow_setCells (s : State) (r : Nat) (row : List Word) :
    (s.writeReadRow r row).setCells = s.setCells := rfl

@[simp] theorem State.writeReadRow_carry (s : State) (r : Nat) (row : List Word) :
    (s.writeReadRow r row).carry = s.carry := rfl

@[simp] theorem State.writeReadRow_resid (s : State) (r : Nat) (row : List Word) :
    (s.writeReadRow r row).resid = s.resid := rfl

@[simp] theorem State.writeReadRow_program (s : State) (r : Nat) (row : List Word) :
    (s.writeReadRow r row).program = s.program := rfl

@[simp] theorem State.writeReadRow_response (s : State) (r : Nat) (row : List Word) :
    (s.writeReadRow r row).response = s.response := rfl

@[simp] theorem State.writeReadRow_registers (s : State) (r : Nat) (row : List Word) :
    (s.writeReadRow r row).registers = s.registers := rfl

@[simp] theorem State.writeReadRow_fieldsOf (s : State) (r : Nat) (row : List Word) (k : Nat) :
    (s.writeReadRow r row).fieldsOf k = s.fieldsOf k := rfl

@[simp] theorem State.writeReadRow_setCell (s : State) (r : Nat) (row : List Word) (k j : Nat) :
    (s.writeReadRow r row).setCell k j = s.setCell k j := rfl

@[simp] theorem State.writeDecoder_config (s : State) (ws : List Word) (bs : List Byte) :
    (s.writeDecoder ws bs).config = s.config := rfl

@[simp] theorem State.writeDecoder_setCells (s : State) (ws : List Word) (bs : List Byte) :
    (s.writeDecoder ws bs).setCells = s.setCells := rfl

@[simp] theorem State.writeDecoder_readCells (s : State) (ws : List Word) (bs : List Byte) :
    (s.writeDecoder ws bs).readCells = s.readCells := rfl

@[simp] theorem State.writeDecoder_program (s : State) (ws : List Word) (bs : List Byte) :
    (s.writeDecoder ws bs).program = s.program := rfl

@[simp] theorem State.writeDecoder_response (s : State) (ws : List Word) (bs : List Byte) :
    (s.writeDecoder ws bs).response = s.response := rfl

@[simp] theorem State.writeDecoder_registers (s : State) (ws : List Word) (bs : List Byte) :
    (s.writeDecoder ws bs).registers = s.registers := rfl

@[simp] theorem State.writeDecoder_fieldsOf (s : State) (ws : List Word) (bs : List Byte) (k : Nat) :
    (s.writeDecoder ws bs).fieldsOf k = s.fieldsOf k := rfl

@[simp] theorem State.writeDecoder_setCell (s : State) (ws : List Word) (bs : List Byte) (k j : Nat) :
    (s.writeDecoder ws bs).setCell k j = s.setCell k j := rfl

@[simp] theorem State.writeDecoder_readCell (s : State) (ws : List Word) (bs : List Byte) (k j : Nat) :
    (s.writeDecoder ws bs).readCell k j = s.readCell k j := rfl

@[simp] theorem State.respond_config (s : State) (p : Response) :
    (s.respond p).config = s.config := rfl

@[simp] theorem State.respond_setCells (s : State) (p : Response) :
    (s.respond p).setCells = s.setCells := rfl

@[simp] theorem State.respond_readCells (s : State) (p : Response) :
    (s.respond p).readCells = s.readCells := rfl

@[simp] theorem State.respond_carry (s : State) (p : Response) :
    (s.respond p).carry = s.carry := rfl

@[simp] theorem State.respond_resid (s : State) (p : Response) :
    (s.respond p).resid = s.resid := rfl

@[simp] theorem State.respond_program (s : State) (p : Response) :
    (s.respond p).program = s.program := rfl

@[simp] theorem State.respond_registers (s : State) (p : Response) :
    (s.respond p).registers = s.registers := rfl

@[simp] theorem State.respond_fieldsOf (s : State) (p : Response) (k : Nat) :
    (s.respond p).fieldsOf k = s.fieldsOf k := rfl

@[simp] theorem State.respond_setCell (s : State) (p : Response) (k j : Nat) :
    (s.respond p).setCell k j = s.setCell k j := rfl

@[simp] theorem State.respond_readCell (s : State) (p : Response) (k j : Nat) :
    (s.respond p).readCell k j = s.readCell k j := rfl

@[simp] theorem State.fail_config (s : State) (e : Failure) :
    (s.fail e).config = s.config := rfl

@[simp] theorem State.fail_setCells (s : State) (e : Failure) :
    (s.fail e).setCells = s.setCells := rfl

@[simp] theorem State.fail_readCells (s : State) (e : Failure) :
    (s.fail e).readCells = s.readCells := rfl

@[simp] theorem State.fail_carry (s : State) (e : Failure) :
    (s.fail e).carry = s.carry := rfl

@[simp] theorem State.fail_resid (s : State) (e : Failure) :
    (s.fail e).resid = s.resid := rfl

@[simp] theorem State.fail_program (s : State) (e : Failure) :
    (s.fail e).program = s.program := rfl

@[simp] theorem State.fail_registers (s : State) (e : Failure) :
    (s.fail e).registers = s.registers := rfl

@[simp] theorem State.fail_fieldsOf (s : State) (e : Failure) (k : Nat) :
    (s.fail e).fieldsOf k = s.fieldsOf k := rfl

@[simp] theorem State.fail_setCell (s : State) (e : Failure) (k j : Nat) :
    (s.fail e).setCell k j = s.setCell k j := rfl

@[simp] theorem State.fail_readCell (s : State) (e : Failure) (k j : Nat) :
    (s.fail e).readCell k j = s.readCell k j := rfl

@[simp] theorem State.placeRequest_config (s : State) (q : Request) :
    (s.placeRequest q).config = s.config := rfl

@[simp] theorem State.placeRequest_setCells (s : State) (q : Request) :
    (s.placeRequest q).setCells = s.setCells := rfl

@[simp] theorem State.placeRequest_readCells (s : State) (q : Request) :
    (s.placeRequest q).readCells = s.readCells := rfl

@[simp] theorem State.placeRequest_carry (s : State) (q : Request) :
    (s.placeRequest q).carry = s.carry := rfl

@[simp] theorem State.placeRequest_resid (s : State) (q : Request) :
    (s.placeRequest q).resid = s.resid := rfl

@[simp] theorem State.placeRequest_response (s : State) (q : Request) :
    (s.placeRequest q).response = s.response := rfl

@[simp] theorem State.placeRequest_registers (s : State) (q : Request) :
    (s.placeRequest q).registers = s.registers := rfl

@[simp] theorem State.placeRequest_fieldsOf (s : State) (q : Request) (k : Nat) :
    (s.placeRequest q).fieldsOf k = s.fieldsOf k := rfl

@[simp] theorem State.placeRequest_setCell (s : State) (q : Request) (k j : Nat) :
    (s.placeRequest q).setCell k j = s.setCell k j := rfl

@[simp] theorem State.placeRequest_readCell (s : State) (q : Request) (k j : Nat) :
    (s.placeRequest q).readCell k j = s.readCell k j := rfl

@[simp] theorem State.writeSet_readRow (s : State) (r i : Nat) (v : Word) (k : Nat) :
    (s.writeSet r i v).readRow k = s.readRow k := rfl

@[simp] theorem State.writeReadRow_setRow (s : State) (r : Nat) (row : List Word) (k : Nat) :
    (s.writeReadRow r row).setRow k = s.setRow k := rfl

@[simp] theorem State.writeDecoder_setRow (s : State) (ws : List Word) (bs : List Byte) (k : Nat) :
    (s.writeDecoder ws bs).setRow k = s.setRow k := rfl

@[simp] theorem State.writeDecoder_readRow (s : State) (ws : List Word) (bs : List Byte) (k : Nat) :
    (s.writeDecoder ws bs).readRow k = s.readRow k := rfl

@[simp] theorem State.respond_setRow (s : State) (p : Response) (k : Nat) :
    (s.respond p).setRow k = s.setRow k := rfl

@[simp] theorem State.respond_readRow (s : State) (p : Response) (k : Nat) :
    (s.respond p).readRow k = s.readRow k := rfl

@[simp] theorem State.fail_setRow (s : State) (e : Failure) (k : Nat) :
    (s.fail e).setRow k = s.setRow k := rfl

@[simp] theorem State.fail_readRow (s : State) (e : Failure) (k : Nat) :
    (s.fail e).readRow k = s.readRow k := rfl

@[simp] theorem State.placeRequest_setRow (s : State) (q : Request) (k : Nat) :
    (s.placeRequest q).setRow k = s.setRow k := rfl

@[simp] theorem State.placeRequest_readRow (s : State) (q : Request) (k : Nat) :
    (s.placeRequest q).readRow k = s.readRow k := rfl

@[simp] theorem State.writeSet_setCells (s : State) (r i : Nat) (v : Word) :
    (s.writeSet r i v).setCells = s.setCells.set r ((s.setRow r).set i v) := rfl

@[simp] theorem State.writeReadRow_readCells (s : State) (r : Nat) (row : List Word) :
    (s.writeReadRow r row).readCells = s.readCells.set r row := rfl

@[simp] theorem State.writeDecoder_carry (s : State) (ws : List Word) (bs : List Byte) :
    (s.writeDecoder ws bs).carry = ws := rfl

@[simp] theorem State.writeDecoder_resid (s : State) (ws : List Word) (bs : List Byte) :
    (s.writeDecoder ws bs).resid = bs := rfl

@[simp] theorem State.respond_response (s : State) (p : Response) :
    (s.respond p).response = some p := rfl

@[simp] theorem State.fail_response (s : State) (e : Failure) :
    (s.fail e).response = some (.failed e) := rfl

@[simp] theorem State.placeRequest_program (s : State) (q : Request) :
    (s.placeRequest q).program = q :: s.program.tail := rfl

/-- A second response replaces the first. -/
@[simp] theorem State.respond_respond (s : State) (p q : Response) :
    (s.respond p).respond q = s.respond q := rfl

end Sys2Proof.Machine
end

