-- ==== Sys2Proof/Laws/WellFormed.lean ====
section
/-! SUPPORT. What well-formedness (`10_state.md` R24) says of a configuration, one lemma per
condition, and the membership lemma of the field list. -/

namespace Sys2Proof

/-- An entry of the field list is a field at its location. -/
theorem RawConfig.mem_fieldList {c : RawConfig} {e : FieldAt} :
    e ∈ c.fieldList ↔ c.registers[e.reg]? = some e.register ∧
      e.register.fields[e.idx]? = some e.field := by
  obtain ⟨r, i, g, f⟩ := e
  constructor
  · intro h
    simp only [RawConfig.fieldList, List.mem_flatMap, List.mem_map] at h
    obtain ⟨⟨g', r'⟩, hg, ⟨f', i'⟩, hf, he⟩ := h
    have hg' := List.mem_zipIdx_iff_getElem?.1 hg
    have hf' := List.mem_zipIdx_iff_getElem?.1 hf
    cases he
    exact ⟨hg', hf'⟩
  · rintro ⟨hg, hf⟩
    simp only [RawConfig.fieldList, List.mem_flatMap, List.mem_map]
    exact ⟨(g, r), List.mem_zipIdx_iff_getElem?.2 hg, (f, i),
      List.mem_zipIdx_iff_getElem?.2 hf, rfl⟩

/-- A configuration is well formed exactly when nothing breaks any condition. -/
theorem RawConfig.wellFormed_iff {c : RawConfig} :
    c.wellFormed = true ↔ ∀ k : Condition, c.culprits k = [] := by
  have hall : ∀ k : Condition, k ∈ Condition.inOrder := by intro k; cases k <;> decide
  simp only [RawConfig.wellFormed, RawConfig.firstDefect, Option.isNone_iff_eq_none,
    List.findSome?_eq_none_iff, Option.map_eq_none_iff, List.head?_eq_none_iff]
  exact ⟨fun h k => h k (hall k), fun h k _ => h k⟩

/-- A field test has no failing field exactly when every field passes. -/
theorem RawConfig.fieldsFailing_eq_nil {c : RawConfig} {ok : RegisterDesc → FieldDesc → Bool} :
    c.fieldsFailing ok = [] ↔ ∀ e ∈ c.fieldList, ok e.register e.field = true := by
  simp [RawConfig.fieldsFailing, List.filter_eq_nil_iff]

/-- A register test has no failing register exactly when every register passes. -/
theorem RawConfig.registersFailing_eq_nil {c : RawConfig} {ok : RegisterDesc → Bool} :
    c.registersFailing ok = [] ↔ ∀ g ∈ c.registers, ok g = true := by
  simp only [RawConfig.registersFailing, List.map_eq_nil_iff, List.filter_eq_nil_iff]
  constructor
  · intro h g hg
    obtain ⟨r, hr⟩ := List.mem_iff_getElem?.1 hg
    simpa using h (g, r) (List.mem_zipIdx_iff_getElem?.2 hr)
  · rintro h ⟨g, r⟩ hgr
    have := h g (List.mem_iff_getElem?.2 ⟨r, List.mem_zipIdx_iff_getElem?.1 hgr⟩)
    simpa using this

/-- W1. -/
theorem Config.bitWidth_bounds (c : Config) {e : FieldAt} (he : e ∈ c.raw.fieldList) :
    1 ≤ e.field.bitWidth ∧ e.field.bitWidth ≤ 32 := by
  have h := RawConfig.wellFormed_iff.1 c.ok .w1
  rw [RawConfig.culprits, RawConfig.fieldsFailing_eq_nil] at h
  simpa using h e he

/-- W2. -/
theorem Config.totalWidth_le (c : Config) {g : RegisterDesc} (hg : g ∈ c.raw.registers) :
    totalWidth g.fields ≤ 32 := by
  have h := RawConfig.wellFormed_iff.1 c.ok .w2
  rw [RawConfig.culprits, RawConfig.registersFailing_eq_nil] at h
  simpa using h g hg

/-- No name of a list is repeated, given those seen, exactly when the names differ pairwise and from
the names seen. -/
theorem repeatedNames_eq_nil {seen : List String} {es : List FieldAt} :
    repeatedNames seen es = [] ↔
      (es.Pairwise fun a b => a.field.name ≠ b.field.name) ∧ ∀ e ∈ es, e.field.name ∉ seen := by
  induction es generalizing seen with
  | nil => simp [repeatedNames]
  | cons e es ih =>
    by_cases h : e.field.name ∈ seen
    · simp [repeatedNames, h]
    · simp only [repeatedNames, h, if_false, ih, List.pairwise_cons, List.mem_cons, not_or,
        forall_eq_or_imp, not_false_eq_true, true_and, forall_and]
      constructor
      · rintro ⟨hp, hn, hs⟩; exact ⟨⟨fun d hd h => hn d hd h.symm, hp⟩, hs⟩
      · rintro ⟨⟨hn, hp⟩, hs⟩; exact ⟨hp, fun d hd h => hn d hd h.symm, hs⟩

/-- No culprit of W3 in a list of fields exactly when their names differ pairwise. -/
theorem duplicateNames_eq_nil {es : List FieldAt} :
    duplicateNames es = [] ↔ es.Pairwise fun a b => a.field.name ≠ b.field.name := by
  simp [duplicateNames, repeatedNames_eq_nil]

/-- W3: two fields of the catalog with one name are one entry. -/
theorem Config.name_unique (c : Config) {d e : FieldAt} (hd : d ∈ c.raw.fieldList)
    (he : e ∈ c.raw.fieldList) (h : d.field.name = e.field.name) : d = e := by
  have hp := duplicateNames_eq_nil.1 (RawConfig.wellFormed_iff.1 c.ok .w3)
  exact List.inj_on_of_nodup_map (f := fun e : FieldAt => e.field.name)
    (List.pairwise_map.2 hp) hd he h

/-- W4. -/
theorem Config.minValue_le_maxValue (c : Config) {e : FieldAt} (he : e ∈ c.raw.fieldList) :
    e.field.minValue ≤ e.field.maxValue := by
  have h := RawConfig.wellFormed_iff.1 c.ok .w4
  rw [RawConfig.culprits, RawConfig.fieldsFailing_eq_nil] at h
  simpa using h e he

/-- W5. -/
theorem Config.maxValue_le (c : Config) {e : FieldAt} (he : e ∈ c.raw.fieldList) :
    e.field.maxValue.toNat ≤ 2 ^ e.field.bitWidth - 1 := by
  have h := RawConfig.wellFormed_iff.1 c.ok .w5
  rw [RawConfig.culprits, RawConfig.fieldsFailing_eq_nil] at h
  simpa using h e he

/-- W6. -/
theorem Config.default_in_range (c : Config) {e : FieldAt} (he : e ∈ c.raw.fieldList) :
    e.field.minValue ≤ e.field.defaultValue ∧ e.field.defaultValue ≤ e.field.maxValue := by
  have h := RawConfig.wellFormed_iff.1 c.ok .w6
  rw [RawConfig.culprits, RawConfig.fieldsFailing_eq_nil] at h
  simpa using h e he

/-- W7. -/
theorem Config.monitor_default (c : Config) {e : FieldAt} (he : e ∈ c.raw.fieldList)
    (hm : e.register.family = .monitor) : e.field.defaultValue = 0 := by
  have h := RawConfig.wellFormed_iff.1 c.ok .w7
  rw [RawConfig.culprits, RawConfig.fieldsFailing_eq_nil] at h
  exact of_decide_eq_true (h e he) hm

/-- W8. -/
theorem Config.address_le (c : Config) {g : RegisterDesc} (hg : g ∈ c.raw.registers) :
    g.address ≤ 4095 := by
  have h := RawConfig.wellFormed_iff.1 c.ok .w8
  rw [RawConfig.culprits, RawConfig.registersFailing_eq_nil] at h
  simpa using h g hg

/-- No role parameter fails exactly when each of the conditions of W9 holds. -/
theorem RawConfig.rolesFailing_eq_nil {c : RawConfig} :
    c.rolesFailing = [] ↔
      c.idReg < c.registers.length ∧ c.fwReg < c.registers.length ∧
      (∃ g, c.registers[c.fwReg]? = some g ∧ c.fwDateIdx < g.fields.length) ∧
      (∃ g, c.registers[c.ackHdrReg]? = some g ∧ g.fields.map (·.bitWidth) = [32]) ∧
      ∃ g, c.registers[c.ackDataReg]? = some g ∧ g.fields.length = 1 := by
  simp only [RawConfig.rolesFailing, List.append_eq_nil_iff, and_assoc]
  refine and_congr ?_ (and_congr ?_ (and_congr ?_ (and_congr ?_ ?_)))
  · split <;> simp_all
  · split <;> simp_all
  all_goals (split <;> simp_all)

/-- W9. -/
theorem Config.roles_valid (c : Config) :
    c.raw.idReg < c.raw.registers.length ∧ c.raw.fwReg < c.raw.registers.length ∧
      (∃ g, c.raw.registers[c.raw.fwReg]? = some g ∧ c.raw.fwDateIdx < g.fields.length) ∧
      (∃ g, c.raw.registers[c.raw.ackHdrReg]? = some g ∧ g.fields.map (·.bitWidth) = [32]) ∧
      ∃ g, c.raw.registers[c.raw.ackDataReg]? = some g ∧ g.fields.length = 1 :=
  RawConfig.rolesFailing_eq_nil.1 (RawConfig.wellFormed_iff.1 c.ok .w9)

end Sys2Proof
end

