-- ==== Sys2Proof/Laws/Operands.lean ====
section
/-! SUPPORT. One lemma per shared operation on operands and cells: what a register or field operand
resolves to, what a write to the store changes, and the arithmetic of a register word. -/

namespace Sys2Proof.Machine

/-! ### Register and field operands -/

theorem resolveRegister_ok_iff {s : State} {r : Nat} {g : RegisterDesc} :
    resolveRegister s r = .ok g ↔ s.registers[r]? = some g := by
  unfold resolveRegister
  cases s.registers[r]? <;> simp

theorem resolveRegister_error_iff {s : State} {r : Nat} {e : Failure} :
    resolveRegister s r = .error e ↔ s.registers[r]? = none ∧ e = .rangeErr := by
  unfold resolveRegister
  cases s.registers[r]? <;> simp [eq_comm]

theorem resolveField_ok_iff {s : State} {r i : Nat} {f : FieldDesc} :
    resolveField s r i = .ok f ↔ ∃ g, s.registers[r]? = some g ∧ g.fields[i]? = some f := by
  unfold resolveField resolveRegister
  cases s.registers[r]? with
  | none => simp
  | some g => cases h : g.fields[i]? <;> simp [h]

theorem resolveField_error_iff {s : State} {r i : Nat} {e : Failure} :
    resolveField s r i = .error e ↔
      (∀ g, s.registers[r]? = some g → g.fields[i]? = none) ∧ e = .rangeErr := by
  unfold resolveField resolveRegister
  cases s.registers[r]? with
  | none => simp [eq_comm]
  | some g => cases h : g.fields[i]? <;> simp only [Option.some.injEq, forall_eq', h] <;>
      simp [eq_comm]

theorem State.fieldsOf_eq {s : State} {r : Nat} {g : RegisterDesc}
    (h : s.registers[r]? = some g) : s.fieldsOf r = g.fields := by
  simp [State.fieldsOf, h]

/-! ### The store -/

/-- The rows of a store have the catalog's lengths. -/
theorem row_length {s : State} {cells : List (List Word)}
    (hs : cells.map List.length = s.registers.map fun g => g.fields.length) {r : Nat}
    {g : RegisterDesc} (hg : s.registers[r]? = some g) :
    r < cells.length ∧ (rowOf cells r).length = g.fields.length := by
  have h : (cells.map List.length)[r]? = (s.registers.map fun g => g.fields.length)[r]? := by
    rw [hs]
  rw [List.getElem?_map, List.getElem?_map, hg] at h
  cases hc : cells[r]? with
  | none => simp [hc] at h
  | some row =>
    obtain ⟨hr, -⟩ := List.getElem?_eq_some_iff.1 hc
    exact ⟨hr, by simpa [rowOf, hc] using h⟩

/-- The row written is the row read back. -/
theorem rowOf_set_self {cells : List (List Word)} {r : Nat} (h : r < cells.length)
    (row : List Word) : rowOf (cells.set r row) r = row := by
  simp [rowOf, h]

/-- Writing one row leaves the others. -/
theorem rowOf_set_ne {cells : List (List Word)} {r k : Nat} (h : k ≠ r) (row : List Word) :
    rowOf (cells.set r row) k = rowOf cells k := by
  simp [rowOf, List.getElem?_set_ne (Ne.symm h)]

/-- `SET[r][i] <- v` makes `SET[r][i]` read `v`, at a location that exists. -/
theorem State.writeSet_setCell_self {s : State} {r i : Nat} {v : Word}
    (hr : r < s.setCells.length) (hi : i < (s.setRow r).length) :
    (s.writeSet r i v).setCell r i = v := by
  simp only [State.setCell, State.setRow, State.writeSet_setCells, rowOf_set_self hr]
  rw [List.getElem?_set_self (by exact hi)]
  rfl

/-- `SET[r][i] <- v` leaves every other `SET` cell. -/
theorem State.writeSet_setCell_ne {s : State} {r i k j : Nat} {v : Word} (h : (k, j) ≠ (r, i)) :
    (s.writeSet r i v).setCell k j = s.setCell k j := by
  by_cases hk : k = r
  · subst hk
    have hj : j ≠ i := fun hj => h (by rw [hj])
    by_cases hr : k < s.setCells.length
    · simp only [State.setCell, State.setRow, State.writeSet_setCells, rowOf_set_self hr]
      rw [List.getElem?_set_ne (Ne.symm hj)]
    · simp only [State.setCell, State.setRow, State.writeSet_setCells]
      rw [List.set_eq_of_length_le (Nat.le_of_not_lt hr)]
  · simp only [State.setCell, State.setRow, State.writeSet_setCells, rowOf_set_ne hk]

/-- Replacing a row by one of the same length keeps the lengths of all rows. -/
theorem lengths_set {cells : List (List Word)} {r : Nat} {row : List Word}
    (h : row.length = (rowOf cells r).length) :
    (cells.set r row).map List.length = cells.map List.length := by
  rw [List.map_set]
  by_cases hr : r < cells.length
  · have hl : row.length = (cells[r]).length := by simpa [rowOf, hr] using h
    rw [hl, ← List.getElem_map List.length (h := by simpa using hr), List.set_getElem_self]
  · rw [List.set_eq_of_length_le (by simpa using hr)]

/-! ### The register word -/

/-- `(w & mask) >> off` is `floor(w / 2^off) mod 2^width` (`40_field_codec.md` R105). -/
theorem extractField_toNat (w : Word) (off width : Nat) :
    (extractField w off width).toNat = w.toNat / 2 ^ off % 2 ^ width := by
  have h : (w.toNat &&& (((1 <<< width) - 1) <<< off)) >>> off
      = w.toNat / 2 ^ off % 2 ^ width := by
    rw [Nat.shiftRight_and_distrib, Nat.shiftLeft_shiftRight, Nat.one_shiftLeft,
      Nat.and_two_pow_sub_one_eq_mod, Nat.shiftRight_eq_div_pow]
  rw [extractField, h, BitVec.toNat_ofNat]
  refine Nat.mod_eq_of_lt (lt_of_le_of_lt (Nat.mod_le _ _) ?_)
  exact lt_of_le_of_lt (Nat.div_le_self _ _) w.isLt

theorem splitWord_length (w : Word) (off : Nat) (fs : List FieldDesc) :
    (splitWord w off fs).length = fs.length := by
  induction fs generalizing off with
  | nil => rfl
  | cons f fs ih => simp [splitWord, ih]

/-- The offset of a field further on in the list. -/
theorem offsetOf_succ (f : FieldDesc) (fs : List FieldDesc) (i : Nat) :
    offsetOf (f :: fs) (i + 1) = f.bitWidth + offsetOf fs i := by
  simp [offsetOf, totalWidth]

/-- Field `i` of a word is extracted at `off(r, i)`. -/
theorem splitWord_getElem? (w : Word) (off : Nat) (fs : List FieldDesc) (i : Nat) :
    (splitWord w off fs)[i]? =
      (fs[i]?).map fun f => extractField w (off + offsetOf fs i) f.bitWidth := by
  induction fs generalizing off i with
  | nil => simp [splitWord]
  | cons f fs ih =>
    cases i with
    | zero => simp [splitWord, offsetOf, totalWidth]
    | succ i => simp [splitWord, ih, offsetOf_succ, Nat.add_assoc]

/-- The offset factors out of the sum. -/
theorem sumCells_eq_mul (off : Nat) (fs : List FieldDesc) (vs : List Word) :
    sumCells off fs vs = 2 ^ off * sumCells 0 fs vs := by
  induction fs generalizing off vs with
  | nil => simp [sumCells]
  | cons f fs ih =>
    cases vs with
    | nil => simp [sumCells]
    | cons v vs =>
      rw [sumCells, sumCells, ih (off + f.bitWidth), ih (0 + f.bitWidth)]
      simp only [Nat.shiftLeft_eq, Nat.zero_add, Nat.pow_zero]
      ring

/-- The sum over one field more. -/
theorem sumCells_cons (f : FieldDesc) (fs : List FieldDesc) (v : Word) (vs : List Word) :
    sumCells 0 (f :: fs) (v :: vs) = v.toNat + 2 ^ f.bitWidth * sumCells 0 fs vs := by
  rw [sumCells, sumCells_eq_mul (0 + f.bitWidth)]
  simp

/-- Cells that fit their fields sum to less than `2^Σ bitWidth`: no carry passes between fields
(`40_field_codec.md` R102). -/
theorem sumCells_lt {fs : List FieldDesc} {vs : List Word}
    (h : ∀ (i : Nat) (f : FieldDesc) (v : Word),
      fs[i]? = some f → vs[i]? = some v → v.toNat < 2 ^ f.bitWidth) :
    sumCells 0 fs vs < 2 ^ totalWidth fs := by
  induction fs generalizing vs with
  | nil => simp [sumCells, totalWidth]
  | cons f fs ih =>
    cases vs with
    | nil => simp [sumCells]
    | cons v vs =>
      have hv : v.toNat < 2 ^ f.bitWidth := h 0 f v rfl rfl
      have ht : sumCells 0 fs vs < 2 ^ totalWidth fs :=
        ih fun i f' v' hf hv' => h (i + 1) f' v' (by simpa using hf) (by simpa using hv')
      have ht' : totalWidth (f :: fs) = f.bitWidth + totalWidth fs := by simp [totalWidth]
      rw [sumCells_cons, ht', Nat.pow_add]
      calc v.toNat + 2 ^ f.bitWidth * sumCells 0 fs vs
          < 2 ^ f.bitWidth * (sumCells 0 fs vs + 1) := by rw [Nat.mul_add]; omega
        _ ≤ 2 ^ f.bitWidth * 2 ^ totalWidth fs := Nat.mul_le_mul_left _ ht

/-- A row of cells fits its fields exactly when every cell is below `2^bitWidth` of its field. -/
theorem cellsFit_iff {fs : List FieldDesc} {vs : List Word} :
    cellsFit fs vs = true ↔ ∀ (i : Nat) (f : FieldDesc) (v : Word),
      fs[i]? = some f → vs[i]? = some v → v.toNat < 2 ^ f.bitWidth := by
  simp only [cellsFit, List.all_eq_true, decide_eq_true_eq, List.mem_iff_getElem?,
    List.getElem?_zip_eq_some]
  constructor
  · intro h i f v hf hv; exact h (f, v) ⟨i, hf, hv⟩
  · rintro h ⟨f, v⟩ ⟨i, hf, hv⟩; exact h i f v hf hv

/-- Where the cells fit, the packed word is the register word. -/
theorem packedWord_of_fit {fs : List FieldDesc} {vs : List Word} (h : cellsFit fs vs = true) :
    packedWord fs vs = registerWord fs vs := by
  simp [packedWord, h]

/-- The values split from a word sum to the word's low `Σ bitWidth` bits. -/
theorem sumCells_splitWord (w : Word) (off : Nat) (fs : List FieldDesc) :
    sumCells 0 fs (splitWord w off fs) = w.toNat / 2 ^ off % 2 ^ totalWidth fs := by
  induction fs generalizing off with
  | nil => simp [sumCells, totalWidth, Nat.mod_one]
  | cons f fs ih =>
    have ht' : totalWidth (f :: fs) = f.bitWidth + totalWidth fs := by simp [totalWidth]
    rw [splitWord, sumCells_cons, ih, extractField_toNat, ht', Nat.pow_add, Nat.pow_add,
      ← Nat.div_div_eq_div_mul, Nat.mod_mul]

/-- Splitting the sum of cells that fit gives the cells back. -/
theorem splitWord_of_sum {fs : List FieldDesc} {vs : List Word} {w : Word} {off : Nat}
    (hlen : vs.length = fs.length)
    (h : ∀ (i : Nat) (f : FieldDesc) (v : Word),
      fs[i]? = some f → vs[i]? = some v → v.toNat < 2 ^ f.bitWidth)
    (hw : w.toNat / 2 ^ off = sumCells 0 fs vs) : splitWord w off fs = vs := by
  induction fs generalizing vs off with
  | nil => rw [List.length_eq_zero_iff.1 hlen, splitWord]
  | cons f fs ih =>
    cases vs with
    | nil => simp at hlen
    | cons v vs =>
      have hv : v.toNat < 2 ^ f.bitWidth := h 0 f v rfl rfl
      rw [sumCells_cons] at hw
      have h1 : extractField w off f.bitWidth = v := by
        apply BitVec.eq_of_toNat_eq
        rw [extractField_toNat, hw, Nat.add_mul_mod_self_left, Nat.mod_eq_of_lt hv]
      have h2 : w.toNat / 2 ^ (off + f.bitWidth) = sumCells 0 fs vs := by
        rw [Nat.pow_add, ← Nat.div_div_eq_div_mul, hw,
          Nat.add_mul_div_left _ _ (Nat.two_pow_pos _), Nat.div_eq_of_lt hv, Nat.zero_add]
      rw [splitWord, h1, ih (by simpa using hlen)
        (fun i f' v' hf hv' => h (i + 1) f' v' (by simpa using hf) (by simpa using hv')) h2]

/-! ### Byte order -/

theorem msb32_toNat (b : Bytes4) : (msb32 b).toNat =
    b.b0.toNat * 2 ^ 24 + b.b1.toNat * 2 ^ 16 + b.b2.toNat * 2 ^ 8 + b.b3.toNat := by
  have h0 := b.b0.isLt
  have h1 := b.b1.isLt
  have h2 := b.b2.isLt
  have h3 := b.b3.isLt
  simp only [msb32, Bytes4.toList, msbN, BitVec.toNat_ofNat, Nat.shiftLeft_eq, List.length]
  omega

theorem lsb32_toNat (b : Bytes4) : (lsb32 b).toNat =
    b.b0.toNat + b.b1.toNat * 2 ^ 8 + b.b2.toNat * 2 ^ 16 + b.b3.toNat * 2 ^ 24 := by
  have h0 := b.b0.isLt
  have h1 := b.b1.isLt
  have h2 := b.b2.isLt
  have h3 := b.b3.isLt
  simp only [lsb32, Bytes4.toList, lsbN, BitVec.toNat_ofNat, Nat.shiftLeft_eq]
  omega

end Sys2Proof.Machine
end

