-- ==== Sys2Proof/Laws/Codec.lean ====
section
/-! SUPPORT. What the invariant gives `PACK` (`40_field_codec.md` R102, `10_state.md` R29). -/

namespace Sys2Proof.Machine

/-- R29 with W5: in a state with the invariant the `SET` cells of a register fit its fields, so the
undefined case of `70_reset_and_hazards.md` R234 does not arise. -/
theorem State.Inv.cellsFit {s : State} (hI : s.Inv) {r : Nat} {g : RegisterDesc}
    (hg : s.registers[r]? = some g) : cellsFit g.fields (s.setRow r) = true := by
  refine cellsFit_iff.2 fun i f v hf hv => ?_
  have hm : (⟨r, i, g, f⟩ : FieldAt) ∈ s.config.raw.fieldList := RawConfig.mem_fieldList.2 ⟨hg, hf⟩
  have hv' : v.toNat ≤ f.maxValue.toNat := by
    simpa [State.setCell, hv, BitVec.le_def] using (hI.setInRange _ hm).2
  have hw : f.maxValue.toNat ≤ 2 ^ f.bitWidth - 1 := s.config.maxValue_le hm
  have hp := Nat.two_pow_pos f.bitWidth
  omega

/-- `PACK` of a non-empty register, in a state with the invariant, returns the register word. -/
theorem packRegister_eq_ok {s : State} (hI : s.Inv) {r : Nat} {g : RegisterDesc}
    (hg : s.registers[r]? = some g) (hne : g.fields ≠ []) :
    packRegister r s = .ok (registerWord g.fields (s.setRow r)) := by
  rw [packRegister, resolveRegister_ok_iff.2 hg]
  simp [hne, packedWord_of_fit (hI.cellsFit hg)]

end Sys2Proof.Machine
end

