-- ==== Sys2Proof/Laws/Exec.lean ====
section
/-! SUPPORT. `exec` said once: every instruction completes one operation, a function from the state
to its new state and results or a status. -/

namespace Sys2Proof.Machine

/-- The operation an instruction performs. -/
def operation : Instr → State → Except Failure (State × Results)
  | .setfield r i v, s => setfield r i v s
  | .pack r, s => pack r s
  | .decode r w, s => decodeWord r w s
  | .getfield r i, s => getfield r i s
  | .lookup n, s => lookup n s
  | .wordmsb b, s => .ok (s, .word (msb32 b))
  | .bytesmsb w, s => .ok (s, .bytes4 (bytesMsb w))
  | .wordlsb b, s => .ok (s, .word (lsb32 b))
  | .mkinstr a m rw, s => .ok (s, .word (mkInstr a m rw))
  | .boardaddr, s => .ok (s, .addr (boardAddress s))
  | .fwversion, s => .ok (s, .word (s.readWord s.config.raw.fwReg))
  | .fwdate, s => .ok (s, .value (s.readCell s.config.raw.fwReg s.config.raw.fwDateIdx))
  | .push c, s => push c s
  | .pushraw c, s => pushraw c s
  | .rststrm, s => .ok (s.writeDecoder [] [], .nothing)

/-- `exec` completes the instruction's operation. -/
theorem exec_eq_complete (i : Instr) (s : State) : exec i s = complete s (operation i s) := by
  cases i <;> rfl

/-- A successful operation's next state. -/
theorem complete_ok (s t : State) (res : Results) :
    complete s (.ok (t, res)) = .next (t.respond (.ok res)) := rfl

/-- A failed operation's next state. -/
theorem complete_error (s : State) (e : Failure) : complete s (.error e) = .next (s.fail e) := rfl

/-- What an instruction can do: end in success with its operation's state and results, or in failure
with the state it began with. -/
theorem exec_cases {i : Instr} {s t : State} (h : exec i s = .next t) :
    (∃ u res, operation i s = .ok (u, res) ∧ t = u.respond (.ok res)) ∨
      ∃ e, operation i s = .error e ∧ t = s.fail e := by
  rw [exec_eq_complete] at h
  cases ho : operation i s with
  | ok p =>
    obtain ⟨u, res⟩ := p
    rw [ho, complete_ok] at h
    exact .inl ⟨u, res, rfl, (Host.Outcome.next.inj h).symm⟩
  | error e =>
    rw [ho, complete_error] at h
    exact .inr ⟨e, rfl, (Host.Outcome.next.inj h).symm⟩

/-- What a step can do: idle, run the decoded instruction, answer `ILLEGAL_OP`, or refuse what is no
request. -/
theorem step_cases (s : State) :
    (s.program = [] ∧ step s = .next s) ∨
      ∃ q rest, s.program = q :: rest ∧
        ((∃ i, decode q = .ok i ∧ step s = exec i { s with program := rest }) ∨
          (decode q = .error .reservedSelector ∧
            step s = .next (({ s with program := rest } : State).fail .illegalOp)) ∨
          ∃ m, decode q = .error (.operandsDoNotFit m) ∧
            step s = .refused (.operandsDoNotFit m)) := by
  cases hp : s.program with
  | nil => exact .inl ⟨rfl, by simp [step, fetch, hp, idle]⟩
  | cons q rest =>
    refine .inr ⟨q, rest, rfl, ?_⟩
    cases hd : decode q with
    | ok i => exact .inl ⟨i, rfl, by simp [step, fetch, hp, hd]⟩
    | error e =>
      cases e with
      | reservedSelector => exact .inr (.inl ⟨rfl, by simp [step, fetch, hp, hd, rejectRequest]⟩)
      | operandsDoNotFit m =>
        exact .inr (.inr ⟨m, rfl, by simp [step, fetch, hp, hd, rejectRequest]⟩)

end Sys2Proof.Machine
end

