-- ==== Sys2Proof/Laws/PerInstr.lean ====
section
/-! SUPPORT. One statement for every instruction as syntax: its request is read back as the
instruction, and the request's operands are the list the selector table demands
(`30_encoding.md` R70 to R72). -/

namespace Sys2Proof.Laws.RequestForm

/-- The request of `i` decodes to `i`, and the types of its operands are those of its selector's row. -/
def Statement (i : Instr) : Prop :=
  decode (encode i) = .ok i ∧
    (selectorRow (encode i).selector).map (·.operands) = some ((encode i).operands.map operandType)

theorem setfield (r j : Nat) (v : Word) : Statement (.setfield r j v) := ⟨rfl, rfl⟩
theorem pack (r : Nat) : Statement (.pack r) := ⟨rfl, rfl⟩
theorem decode (r : Nat) (w : Word) : Statement (.decode r w) := ⟨rfl, rfl⟩
theorem getfield (r j : Nat) : Statement (.getfield r j) := ⟨rfl, rfl⟩
theorem lookup (n : String) : Statement (.lookup n) := ⟨rfl, rfl⟩
theorem wordmsb (b : Bytes4) : Statement (.wordmsb b) := ⟨rfl, rfl⟩
theorem bytesmsb (w : Word) : Statement (.bytesmsb w) := ⟨rfl, rfl⟩
theorem wordlsb (b : Bytes4) : Statement (.wordlsb b) := ⟨rfl, rfl⟩
theorem mkinstr (a : BitVec 12) (m : BitVec 4) (rw : BitVec 1) : Statement (.mkinstr a m rw) :=
  ⟨rfl, rfl⟩
theorem boardaddr : Statement .boardaddr := ⟨rfl, rfl⟩
theorem fwversion : Statement .fwversion := ⟨rfl, rfl⟩
theorem fwdate : Statement .fwdate := ⟨rfl, rfl⟩
theorem push (c : List Byte) : Statement (.push c) := ⟨rfl, rfl⟩
theorem pushraw (c : List Byte) : Statement (.pushraw c) := ⟨rfl, rfl⟩
theorem rststrm : Statement .rststrm := ⟨rfl, rfl⟩

end Sys2Proof.Laws.RequestForm
end

