-- ==== Sys2Proof/Laws/Stream.lean ====
section
/-! SUPPORT. One lemma per operation of the reassembler: what cutting bytes into words and words into
groups leaves over, and how it goes on where it left off. -/

namespace Sys2Proof.Machine

/-- Fewer than 4 bytes are left as they are. -/
theorem cutWords_short {bs : List Byte} (h : bs.length < 4) : cutWords bs = ([], bs) := by
  match bs, h with
  | [], _ | [_], _ | [_, _], _ | [_, _, _], _ => rfl

/-- Fewer than 6 words are left as they are. -/
theorem cutGroups_short {ws : List Word} (h : ws.length < 6) : cutGroups ws = ([], ws) := by
  match ws, h with
  | [], _ | [_], _ | [_, _], _ | [_, _, _], _ | [_, _, _, _], _ | [_, _, _, _, _], _ => rfl

/-- `floor(len / 4)` words are cut and `len mod 4` bytes are left (R160, R165). -/
theorem cutWords_lengths (bs : List Byte) :
    (cutWords bs).1.length = bs.length / 4 ∧ (cutWords bs).2.length = bs.length % 4 := by
  fun_induction cutWords bs with
  | case1 b0 b1 b2 b3 rest p ih =>
    have h1 : p.1.length = rest.length / 4 := ih.1
    have h2 : p.2.length = rest.length % 4 := ih.2
    simp only [List.length_cons]
    constructor <;> omega
  | case2 rest h =>
    have hl : rest.length < 4 := by
      rcases rest with _ | ⟨a, _ | ⟨b, _ | ⟨c, _ | ⟨d, t⟩⟩⟩⟩
      all_goals first
        | exact absurd rfl (h _ _ _ _ _)
        | simp
    simp only [List.length_nil]
    omega

/-- `floor(len / 6)` groups are cut and `len mod 6` words are left (R160, R164). -/
theorem cutGroups_lengths (ws : List Word) :
    (cutGroups ws).1.length = ws.length / 6 ∧ (cutGroups ws).2.length = ws.length % 6 := by
  fun_induction cutGroups ws with
  | case1 w0 w1 w2 w3 w4 w5 rest p ih =>
    have h1 : p.1.length = rest.length / 6 := ih.1
    have h2 : p.2.length = rest.length % 6 := ih.2
    simp only [List.length_cons]
    constructor <;> omega
  | case2 rest h =>
    have hl : rest.length < 6 := by
      rcases rest with _ | ⟨a, _ | ⟨b, _ | ⟨c, _ | ⟨d, _ | ⟨e, _ | ⟨f, t⟩⟩⟩⟩⟩⟩
      all_goals first
        | exact absurd rfl (h _ _ _ _ _ _ _)
        | simp
    simp only [List.length_nil]
    omega

/-- Cutting a longer stream goes on from the bytes left over. -/
theorem cutWords_append (a b : List Byte) :
    cutWords (a ++ b) =
      ((cutWords a).1 ++ (cutWords ((cutWords a).2 ++ b)).1, (cutWords ((cutWords a).2 ++ b)).2) := by
  fun_induction cutWords a with
  | case1 b0 b1 b2 b3 rest p ih =>
    simp only [List.cons_append, cutWords, ih]
    rfl
  | case2 rest h => simp

/-- Grouping a longer word sequence goes on from the words left over. -/
theorem cutGroups_append (a b : List Word) :
    cutGroups (a ++ b) =
      ((cutGroups a).1 ++ (cutGroups ((cutGroups a).2 ++ b)).1,
        (cutGroups ((cutGroups a).2 ++ b)).2) := by
  fun_induction cutGroups a with
  | case1 w0 w1 w2 w3 w4 w5 rest p ih =>
    simp only [List.cons_append, cutGroups, ih]
    rfl
  | case2 rest h => simp

/-- Taking in a chunk writes `CARRY` and `RESID` and nothing else. -/
theorem acceptChunk_state (c : List Byte) (s : State) :
    (acceptChunk c s).2 =
      s.writeDecoder (cutGroups (streamWords s.carry s.resid c).1).2
        (streamWords s.carry s.resid c).2 := rfl

/-- The lengths after a chunk is taken in (R165, R168). -/
theorem acceptChunk_lengths (c : List Byte) (s : State) :
    (acceptChunk c s).1.length = (s.carry.length + (s.resid.length + c.length) / 4) / 6 ∧
      (acceptChunk c s).2.carry.length =
        (s.carry.length + (s.resid.length + c.length) / 4) % 6 ∧
      (acceptChunk c s).2.resid.length = (s.resid.length + c.length) % 4 := by
  have hb := cutWords_lengths (s.resid ++ c)
  have hg := cutGroups_lengths (s.carry ++ (cutWords (s.resid ++ c)).1)
  rw [List.length_append] at hb hg
  rw [hb.1] at hg
  exact ⟨hg.1, hg.2, hb.2⟩

/-- Taking in two chunks one after the other cuts the same groups and leaves the same state as taking
in both at once. -/
theorem acceptChunk_append (c d : List Byte) (s : State) :
    (acceptChunk (c ++ d) s).1 =
        (acceptChunk c s).1 ++ (acceptChunk d (acceptChunk c s).2).1 ∧
      (acceptChunk (c ++ d) s).2 = (acceptChunk d (acceptChunk c s).2).2 := by
  have hb := cutWords_append (s.resid ++ c) d
  have hg := cutGroups_append (s.carry ++ (cutWords (s.resid ++ c)).1)
    (cutWords ((cutWords (s.resid ++ c)).2 ++ d)).1
  simp only [acceptChunk, streamWords, State.writeDecoder_carry, State.writeDecoder_resid]
  rw [List.append_assoc] at hb
  rw [hb]
  simp only
  rw [← List.append_assoc, hg]
  exact ⟨rfl, rfl⟩

end Sys2Proof.Machine
end

