-- ==== Sys2Proof/Laws/Transaction.lean ====
section
/-! SUPPORT. What the parts of a transaction can do, said once (`43_command_words.md` R150 to R153). -/

namespace Sys2Proof.Machine

/-- A send goes through exactly when the transport answers a count not short of the bytes. -/
theorem sendEnds_eq_none {bytes : List Byte} {a : SendAnswer} :
    sendEnds bytes a = none ↔ ∃ n, a = .sent n ∧ bytes.length ≤ n := by
  cases a <;> simp [sendEnds]

/-- A receive goes through exactly when the transport answers the number of bytes asked for. -/
theorem receiveExactly_eq_ok {n : Nat} {a : ReceiveAnswer} {bytes : List Byte} :
    receiveExactly n a = .ok bytes ↔ a = .received bytes ∧ bytes.length = n := by
  cases a with
  | received bs =>
    by_cases h : bs.length = n
    · simp only [receiveExactly, h, if_true, Except.ok.injEq, ReceiveAnswer.received.injEq]
      exact ⟨fun e => ⟨e, e ▸ h⟩, fun e => e.1⟩
    · simp only [receiveExactly, h, if_false, reduceCtorEq, ReceiveAnswer.received.injEq, false_iff]
      rintro ⟨rfl, e⟩
      exact h e
  | error => simp [receiveExactly]
  | never => simp [receiveExactly]

/-- The last part of a transaction decodes an answer of 8 bytes, or leaves the state as it was. -/
theorem receiveAck_cases (dataReg : Nat) (calls : List TransportCall) (a : ReceiveAnswer)
    (s : State) :
    (∃ ack, a = .received ack ∧ ack.length = 8 ∧ receiveAck dataReg calls a s =
      ⟨.completed, s.decodeAck dataReg ack, calls ++ [.receive .ackRead 8]⟩) ∨
    ∃ o, o ≠ .completed ∧ receiveAck dataReg calls a s = ⟨o, s, calls ++ [.receive .ackRead 8]⟩ := by
  unfold receiveAck
  cases h : receiveExactly 8 a with
  | ok ack =>
    obtain ⟨ha, hl⟩ := receiveExactly_eq_ok.1 h
    exact .inl ⟨ack, ha, hl, rfl⟩
  | error o =>
    refine .inr ⟨o, ?_, rfl⟩
    rintro rfl
    cases a <;> simp only [receiveExactly] at h <;> first | (split at h <;> cases h) | cases h

/-- Decoding an acknowledge pair writes `READ` cells alone. -/
@[simp] theorem State.decodeAck_setCells (s : State) (r : Nat) (ack : List Byte) :
    (s.decodeAck r ack).setCells = s.setCells := rfl

@[simp] theorem State.decodeAck_carry (s : State) (r : Nat) (ack : List Byte) :
    (s.decodeAck r ack).carry = s.carry := rfl

@[simp] theorem State.decodeAck_resid (s : State) (r : Nat) (ack : List Byte) :
    (s.decodeAck r ack).resid = s.resid := rfl

@[simp] theorem State.decodeAck_config (s : State) (r : Nat) (ack : List Byte) :
    (s.decodeAck r ack).config = s.config := rfl

end Sys2Proof.Machine
end

