-- ==== Sys2Proof/Tests/Slice0.lean ====
section
/-! SUPPORT. The model's own tests. Every expected value is one of `95_test_vectors.md`, or worked out by
hand from the rule the test names; the vector's id stands in the test's comment. Witnesses for the
obligations with hypotheses stand at the end. -/

namespace Sys2Proof.Tests

open Sys2Proof Sys2Proof.Machine

/-! ### Well-formedness of a configuration (`10_state.md` R24; vectors K1 to K13) -/

/-- `T` with one more register. -/
def withRegister (g : RegisterDesc) : RawConfig :=
  { vectorConfig with registers := vectorConfig.registers ++ [g] }

/-- `T` with one more `CONFIG` register at address 9 that has these fields. -/
def withFields (fs : List FieldDesc) : RawConfig := withRegister ⟨.config, 0x009, fs⟩

theorem test_wf_vector_catalog : vectorConfig.wellFormed = true := by decide -- K1

theorem test_wf_width_zero_refused : -- K4, W1
    (withFields [⟨"a", 0, 0, 0, 0⟩]).firstDefect = some ⟨.w1, .field 6 0⟩ := by decide

theorem test_wf_width_33_refused : -- K4, W1 (and W2, checked later)
    (withFields [⟨"a", 33, 0, 0, 0⟩]).firstDefect = some ⟨.w1, .field 6 0⟩ := by decide

theorem test_wf_sum_33_refused : -- K2, W2
    (withFields [⟨"a", 20, 0, 0, 0⟩, ⟨"b", 13, 0, 0, 0⟩]).firstDefect
      = some ⟨.w2, .register 6⟩ := by decide

theorem test_wf_sum_32_allowed : -- K3
    (withFields [⟨"a", 16, 0, 0, 0⟩, ⟨"b", 16, 0, 0, 0⟩]).wellFormed = true := by decide

theorem test_wf_duplicate_name_refused : -- K5, W3: the name stands in another register
    (withFields [⟨"e_lo", 4, 0, 15, 0⟩]).firstDefect = some ⟨.w3, .field 6 0⟩ := by decide

theorem test_wf_first_repeat_reported : -- the loop of `41_catalog.md` R120 stops at the second `b`
    (withFields [⟨"a", 4, 0, 15, 0⟩, ⟨"b", 4, 0, 15, 0⟩, ⟨"b", 4, 0, 15, 0⟩,
      ⟨"a", 4, 0, 15, 0⟩]).firstDefect = some ⟨.w3, .field 6 2⟩ := by decide

theorem test_wf_names_compare_exactly : -- K13
    (withFields [⟨"Vref", 4, 0, 15, 0⟩, ⟨"vref", 4, 0, 15, 0⟩]).wellFormed = true := by decide

theorem test_wf_min_above_max_refused : -- K7, W4
    (withFields [⟨"a", 4, 5, 3, 4⟩]).firstDefect = some ⟨.w4, .field 6 0⟩ := by decide

theorem test_wf_max_too_wide_refused : -- K6, W5
    (withFields [⟨"a", 4, 0, 16, 0⟩]).firstDefect = some ⟨.w5, .field 6 0⟩ := by decide

theorem test_wf_default_below_min_refused : -- K8, W6
    (withFields [⟨"a", 4, 2, 9, 0⟩]).firstDefect = some ⟨.w6, .field 6 0⟩ := by decide

theorem test_wf_monitor_default_refused : -- K9, W7
    (withRegister ⟨.monitor, 0x009, [⟨"a", 4, 0, 15, 3⟩]⟩).firstDefect
      = some ⟨.w7, .field 6 0⟩ := by decide

theorem test_wf_address_refused : -- K10, W8
    (withRegister ⟨.config, 0x1000, []⟩).firstDefect = some ⟨.w8, .register 6⟩ := by decide

theorem test_wf_ack_header_refused : -- K11, W9
    ({ vectorConfig with ackHdrReg := 0 } : RawConfig).firstDefect
      = some ⟨.w9, .role .ackHdrReg⟩ := by decide

theorem test_wf_date_index_refused : -- K12, W9
    ({ vectorConfig with fwDateIdx := 2 } : RawConfig).firstDefect
      = some ⟨.w9, .role .fwDateIdx⟩ := by decide

theorem test_wf_id_register_refused : -- W9: `ID_REG < NREG`
    ({ vectorConfig with idReg := 6 } : RawConfig).firstDefect = some ⟨.w9, .role .idReg⟩ := by
  decide

theorem test_wf_ack_data_refused : -- W9: `nf(ACK_DATA_REG) = 1`
    ({ vectorConfig with ackDataReg := 5 } : RawConfig).firstDefect
      = some ⟨.w9, .role .ackDataReg⟩ := by decide

/-! ### Decoding (`30_encoding.md` R70 to R74); each selector is the byte of the table of R72 -/

theorem test_decode_setfield : -- program P1, line 2
    decode ⟨0b00000001, [.regid 0, .fidx 1, .u32 7]⟩ = .ok (.setfield 0 1 7) := by decide
theorem test_decode_pack : -- P1, line 1
    decode ⟨0b00000010, [.regid 0]⟩ = .ok (.pack 0) := by decide
theorem test_decode_decode : -- P1, line 8
    decode ⟨0b00000011, [.regid 0, .u32 0x7FFF]⟩ = .ok (.decode 0 0x7FFF) := by decide
theorem test_decode_getfield : -- P1, line 10
    decode ⟨0b00000100, [.regid 0, .fidx 1]⟩ = .ok (.getfield 0 1) := by decide
theorem test_decode_lookup : -- P2, line 1
    decode ⟨0b00000101, [.name "g_sel"]⟩ = .ok (.lookup "g_sel") := by decide
theorem test_decode_wordmsb : -- P2, line 9
    decode ⟨0b00010000, [.bytes4 ⟨0, 0, 0, 1⟩]⟩ = .ok (.wordmsb ⟨0, 0, 0, 1⟩) := by decide
theorem test_decode_bytesmsb : -- P2, line 6
    decode ⟨0b00010001, [.u32 0x106]⟩ = .ok (.bytesmsb 0x106) := by decide
theorem test_decode_wordlsb : -- R72
    decode ⟨0b00010010, [.bytes4 ⟨1, 2, 3, 4⟩]⟩ = .ok (.wordlsb ⟨1, 2, 3, 4⟩) := by decide
theorem test_decode_mkinstr : -- P2, line 5
    decode ⟨0b00011000, [.u12 0x106, .u4 1, .u1 0]⟩ = .ok (.mkinstr 0x106 1 0) := by decide
theorem test_decode_boardaddr : decode ⟨0b00011001, []⟩ = .ok .boardaddr := by decide -- P3
theorem test_decode_fwversion : decode ⟨0b00011010, []⟩ = .ok .fwversion := by decide -- P3
theorem test_decode_fwdate : decode ⟨0b00011011, []⟩ = .ok .fwdate := by decide -- P3
theorem test_decode_push : -- P4, line 4
    decode ⟨0b00100000, [.bytes [0x00, 0x1E]]⟩ = .ok (.push [0x00, 0x1E]) := by decide
theorem test_decode_pushraw : -- R72
    decode ⟨0b00100001, [.bytes [0xD3]]⟩ = .ok (.pushraw [0xD3]) := by decide
theorem test_decode_rststrm : decode ⟨0b00100010, []⟩ = .ok .rststrm := by decide -- P4, line 1

theorem test_decode_reserved_selectors : -- E1, E2
    ∀ sel ∈ [0x00, 0x06, 0x0F, 0x13, 0x17, 0x1C, 0x1F, 0x23, (0xFF : BitVec 8)],
      decode ⟨sel, []⟩ = .error .reservedSelector := by decide

theorem test_decode_reserved_before_operands : -- `60_exceptions.md` R199
    decode ⟨0x06, [.regid 0]⟩ = .error .reservedSelector := by decide

theorem test_decode_operand_list_refused : -- R70: not the list the selector demands
    decode ⟨0x02, [.u32 0]⟩ = .error (.operandsDoNotFit .pack) ∧
    decode ⟨0x19, [.u4 0]⟩ = .error (.operandsDoNotFit .boardaddr) ∧
    decode ⟨0x01, [.regid 0, .fidx 1]⟩ = .error (.operandsDoNotFit .setfield) := by decide

theorem test_selectors_do_not_overlap :
    selectorTable.Pairwise (fun a b => a.selector ≠ b.selector) := by decide

theorem test_table_words :
    decodeTableWord 8 0x01 = some (.setfield 0 0 0) ∧ decodeTableWord 8 0x05 = some (.lookup "") ∧
    decodeTableWord 8 0x12 = some (.wordlsb ⟨0, 0, 0, 0⟩) ∧
    decodeTableWord 8 0x18 = some (.mkinstr 0 0 0) ∧ decodeTableWord 8 0x22 = some .rststrm ∧
    decodeTableWord 8 0x23 = none := by decide

/-! ### The states the tests start from (`95_test_vectors.md` section 2.0) -/

/-- The test catalog `T` as a block's configuration. -/
def vector : Config := ⟨vectorConfig, by decide⟩

/-- `T` with `CHUNK_MODE = WORD`. -/
def vectorWord : Config := ⟨{ vectorConfig with chunkMode := .word }, by decide⟩

/-- The state after construction of `T`, its unspecified `READ` cells at numbers of the test's own. -/
def start : State :=
  { State.ofConfig vector with readCells := [[7, 7], [7, 7, 7], [7, 7], [7], [7], []] }

/-- `start` in `CHUNK_MODE = WORD`. -/
def startWord : State := { start with config := vectorWord }

/-- The state an operation ends in. -/
def after (i : Instr) (s : State) : State :=
  match exec i s with
  | .next t => t
  | .fault _ => s
  | .refused _ => s

theorem exec_after (i : Instr) (s : State) : exec i s = .next (after i s) := by
  cases i <;> rfl

/-- What an operation hands back. -/
def answer (i : Instr) (s : State) : Option Response := (after i s).response

theorem test_construct_vector : construct vectorConfig = .ok (State.ofConfig vector) := rfl -- K1

theorem test_construct_cells : -- section 2.0, state after construction
    (State.ofConfig vector).setCells = [[100, 1], [0, 2, 1], [0, 0], [0], [0], []] ∧
    (State.ofConfig vector).carry = [] ∧ (State.ofConfig vector).resid = [] := by decide

theorem test_reset_runs_every_row :
    ∀ w ∈ [0x01, 0x02, 0x03, 0x04, 0x05, 0x10, 0x11, 0x12, 0x18, 0x19, 0x1A, 0x1B, 0x20, 0x21, 0x22],
      (match step (State.reset.withFetchWord 8 w) with
        | .next _ => true
        | .fault _ => false
        | .refused _ => false) = true := by decide

/-! ### The field codec (`95_test_vectors.md` section 2.1) -/

theorem test_setfield_in_range : -- V16
    (after (.setfield 1 1 9) start).setCells = [[100, 1], [0, 9, 1], [0, 0], [0], [0], []] := by
  decide

theorem test_setfield_out_of_range : -- V10 to V14, V18
    ∀ i ∈ [.setfield 0 1 16, .setfield 0 2 0, .setfield 6 0 0, .setfield 1 1 1, .setfield 1 1 10,
        Instr.setfield 5 0 0],
      after i start = start.respond (.failed .rangeErr) := by decide

theorem test_pack_sums : -- V2, V30
    answer (.pack 0) (after (.setfield 0 1 7) start) = some (.ok (.word 0x00007064)) ∧
    answer (.pack 1) start = some (.ok (.word 0x00000024)) := by decide

theorem test_pack_failures : -- V31, V32
    answer (.pack 5) start = some (.failed .emptyErr) ∧
    answer (.pack 6) start = some (.failed .rangeErr) := by decide

theorem test_decode_unvalidated : -- V36, V42: no range check, uncovered bits ignored
    (after (.decode 1 0x7F) start).readRow 1 = [1, 15, 3] ∧
    (after (.decode 0 0xFFFF1064) start).readRow 0 = [100, 1] := by decide

theorem test_decode_full_width : -- V23, V34: 32 bits, and an empty register
    (after (.decode 3 0xFFFFFFFF) start).readRow 3 = [0xFFFFFFFF] ∧
    after (.decode 5 0x12345678) start = start.respond (.ok .nothing) := by decide

theorem test_getfield_both_cells : -- V39
    answer (.getfield 0 1) (after (.decode 0 0x1064) start) = some (.ok (.cells 1 1)) := by decide

theorem test_getfield_failures : -- V40
    answer (.getfield 0 2) start = some (.failed .rangeErr) ∧
    answer (.getfield 6 0) start = some (.failed .rangeErr) := by decide

theorem test_lookup : -- L2, L3
    answer (.lookup "g_mode") start = some (.ok (.location 1 2)) ∧
    answer (.lookup "ack_data") start = some (.ok (.location 4 0)) := by decide

theorem test_lookup_failures : -- L4, L5
    answer (.lookup "E_HI") start = some (.failed .lookupErr) ∧
    answer (.lookup "") start = some (.failed .lookupErr) := by decide

/-! ### Words and bytes (section 2.2) -/

theorem test_wordmsb : -- B1, B5
    answer (.wordmsb ⟨0x01, 0x02, 0x03, 0x04⟩) start = some (.ok (.word 0x01020304)) ∧
    answer (.wordmsb ⟨0x80, 0x00, 0x00, 0x01⟩) start = some (.ok (.word 0x80000001)) := by decide

theorem test_wordlsb : -- B2, B6
    answer (.wordlsb ⟨0x01, 0x02, 0x03, 0x04⟩) start = some (.ok (.word 0x04030201)) ∧
    answer (.wordlsb ⟨0x80, 0x00, 0x00, 0x01⟩) start = some (.ok (.word 0x01000080)) := by decide

theorem test_bytesmsb : -- B10, B11
    answer (.bytesmsb 0x00001305) start = some (.ok (.bytes4 ⟨0x00, 0x00, 0x13, 0x05⟩)) ∧
    answer (.bytesmsb 0xCAFEF00D) start = some (.ok (.bytes4 ⟨0xCA, 0xFE, 0xF0, 0x0D⟩)) := by decide

/-! ### The command channel (section 2.3) -/

theorem test_mkinstr : -- I1, I7
    answer (.mkinstr 0x005 3 1) start = some (.ok (.word 0x00001305)) ∧
    answer (.mkinstr 0x105 2 0) start = some (.ok (.word 0x00000305)) := by decide

theorem test_mkinstr_largest : -- I3
    answer (.mkinstr 0x0FF 15 1) start = some (.ok (.word 0x00001FFF)) := by decide

theorem test_boardaddr : -- A1, A4
    answer .boardaddr (after (.decode 2 0x0000000A) start) = some (.ok (.addr 5)) ∧
    answer .boardaddr (after (.decode 2 0x12345673) start) = some (.ok (.addr 12)) := by decide

theorem test_fwversion : -- A5
    answer .fwversion (after (.decode 2 0x2309151A) start) = some (.ok (.word 0x2309151A)) := by decide

theorem test_fwdate : -- A5
    answer .fwdate (after (.decode 2 0x2309151A) start) = some (.ok (.value 0x00230915)) := by decide

/-! ### The stream (sections 2.4 and 2.5) -/

/-- The wire bytes of record `A`. -/
def bytesA : List Byte :=
  [0xD3, 0x00, 0x00, 0xA5, 0xEF, 0xCD, 0xAB, 0x00, 0x56, 0x34, 0x12, 0xFF,
   0x01, 0x20, 0x00, 0x00, 0xFF, 0x0F, 0x80, 0x80, 0xFF, 0x37, 0x12, 0x00]

/-- The wire bytes of record `B`. -/
def bytesB : List Byte :=
  [0x1E, 0x00, 0x00, 0x00, 0x01, 0x00, 0x00, 0x00, 0xFF, 0xFF, 0xFF, 0x00,
   0x00, 0xF0, 0xFF, 0x00, 0xBC, 0xFA, 0xDE, 0x00, 0x55, 0xA5, 0xAA, 0x00]

/-- The wire bytes of the vectors' marker. -/
def bytesMarker : List Byte := [0x0D, 0xF0, 0xFE, 0xCA]

/-- Record `A` under the default layout. -/
def recordA : MonitoringRecord :=
  ⟨true, 9, 2, 0xABCDEF, 0x123456, 0xABCDEF123456, #v[0x001, 0x002, 0xFFF, 0x800, 0x7FF, 0x123]⟩

/-- Record `B` under the default layout. -/
def recordB : MonitoringRecord :=
  ⟨false, 15, 0, 0x000001, 0xFFFFFF, 0x000001FFFFFF, #v[0x000, 0xFFF, 0xABC, 0xDEF, 0x555, 0xAAA]⟩

theorem test_push_records : -- S1, and S3 chunk by chunk
    answer (.push (bytesA ++ bytesB)) start = some (.ok (.records [recordA, recordB] false)) ∧
    (after (.push (bytesA.take 23)) start).carry
      = [0xA50000D3, 0x00ABCDEF, 0xFF123456, 0x00002001, 0x80800FFF] ∧
    (after (.push (bytesA.take 23)) start).resid = [0xFF, 0x37, 0x12] ∧
    answer (.push (bytesA.drop 23 ++ bytesB)) (after (.push (bytesA.take 23)) start)
      = some (.ok (.records [recordA, recordB] false)) := by decide

theorem test_record_other_positions : -- the table of `CH_HI_POS` 16 and 20
    (decodeRecord .specDefault .at16
      ⟨0xA50000D3, 0x00ABCDEF, 0xFF123456, 0x00002001, 0x80800FFF, 0x001237FF⟩).channel
      = #v[0x001, 0x000, 0xFFF, 0x080, 0x7FF, 0x012] ∧
    (decodeRecord .specDefault .at20
      ⟨0xA50000D3, 0x00ABCDEF, 0xFF123456, 0x00002001, 0x80800FFF, 0x001237FF⟩).channel
      = #v[0x001, 0x000, 0xFFF, 0x808, 0x7FF, 0x001] := by decide

theorem test_push_marker_and_mode : -- M1, M6, M8 (fewer than 4 bytes), W1, W2
    answer (.push (bytesA ++ bytesB ++ bytesMarker)) start
      = some (.ok (.records [recordA, recordB] true)) ∧
    answer (.push (List.replicate 20 0 ++ bytesMarker)) start
      = some (.ok (.records [⟨false, 0, 0, 0, 0, 0, #v[0, 0, 0, 0, 0x00D, 0xFEF]⟩] true)) ∧
    answer (.push [0xF0, 0xFE, 0xCA]) (after (.push [0x0D]) start)
      = some (.ok (.records [] false)) ∧
    after (.push (bytesA ++ [0x1E])) startWord = startWord.respond (.failed .formatErr) ∧
    answer (.push bytesA) startWord = some (.ok (.records [recordA] false)) := by decide

theorem test_pushraw : -- M9
    answer (.pushraw (bytesA ++ bytesB ++ bytesMarker)) start
      = some (.ok (.raw (bytesA ++ bytesB ++ bytesMarker) true)) ∧
    (after (.pushraw (bytesA ++ bytesB ++ bytesMarker)) start).carry = [0xCAFEF00D] := by decide

theorem test_pushraw_then_push : -- X3
    answer (.push (bytesB.drop 1)) (after (.pushraw (bytesA ++ [0x1E])) start)
      = some (.ok (.records [recordB] false)) := by decide

theorem test_rststrm_misaligns : -- X6
    let t := after (.push ((bytesA ++ bytesB).drop 23))
      (after .rststrm (after (.push (bytesA.take 23)) start))
    t.carry = [] ∧ t.resid = [0x00] ∧ t.response = some (.ok (.records
      [⟨false, 0, 0, 0x000100, 0xFFFF00, 0x000100FFFF00,
        #v[0x000, 0xF00, 0xC00, 0xFAB, 0x500, 0xA55]⟩] false)) := by decide

/-! ### The step -/

/-- `start` with a program. -/
def startWith (p : List Request) : State := { start with program := p }

theorem test_step_reserved : -- E1, P5 line 4
    step (startWith [⟨0x00, [.u32 5]⟩, ⟨0x22, []⟩])
      = .next ((startWith [⟨0x22, []⟩]).respond (.failed .illegalOp)) := rfl

theorem test_step_runs : -- P1, line 1
    step (startWith [⟨0x02, [.regid 0]⟩]) = .next (start.respond (.ok (.word 0x00001064))) := rfl

/-! ### The transaction procedures (programs P2 and P3) -/

theorem test_write_fields : -- P2: the bytes sent, the cells after, and the restore of line 8
    let good := writeFields 1 1 [(1, 9)]
      ⟨.sent 4, .sent 4, .received [0, 0, 0, 1, 0, 0, 0, 0x32]⟩ start
    let bad := writeFields 1 1 [(1, 9)] ⟨.sent 4, .sent 3, .error⟩ start
    good.calls = [.send .instrDataWrite [0, 0, 1, 6], .send .instrDataWrite [0, 0, 0, 0x32],
      .receive .ackRead 8] ∧
    good.state.setRow 1 = [0, 9, 1] ∧ good.state.readRow 3 = [1] ∧ good.state.readRow 4 = [0x32] ∧
    good.state.readRow 1 = start.readRow 1 ∧
    bad.outcome = .failed .transportErr ∧ bad.state = start := by decide

theorem test_read_transaction : -- P3
    let e := readTransaction 2 0 ⟨.sent 4, .error,
      .received [0, 0, 0, 0, 0x23, 0x09, 0x15, 0x1A]⟩ start
    e.calls = [.send .instrDataWrite [0, 0, 0x10, 0xF0], .receive .ackRead 8] ∧
    e.state.readRow 2 = [0x1A, 0x230915] ∧
    e.state.readRow 3 = [0] ∧ e.state.setCells = start.setCells := by decide

/-! ### Witnesses: for each obligation with hypotheses, a state and operands that meet them all -/

theorem start_inv : start.Inv :=
  ⟨by decide, by decide, by decide, by decide, by decide, by decide⟩

theorem startWord_inv : startWord.Inv :=
  ⟨by decide, by decide, by decide, by decide, by decide, by decide⟩

theorem start_eLo : start.HasField 0 0 ⟨"e_lo", 12, 0, 4095, 100⟩ := ⟨_, rfl, rfl⟩

theorem start_gSel : start.HasField 1 1 ⟨"g_sel", 4, 2, 9, 2⟩ := ⟨_, rfl, rfl⟩

/-- No location `(r, i)` of `start` is a field. -/
theorem start_noField {r i : Nat} (h : ((start.registers[r]?).bind fun g => g.fields[i]?) = none) :
    ¬∃ f, start.HasField r i f := by
  rintro ⟨f, g, hg, hf⟩
  simp [hg, hf] at h

theorem witness_ReservedSelectorIsIllegalOp :
    (∀ sel ∈ [0x00, 0x06, 0x0F, 0x13, 0x17, 0x1C, 0x1F, 0x23, (0xFF : BitVec 8)], Reserved sel) ∧
    (∀ sel ∈ [0x01, 0x05, 0x10, 0x12, 0x18, 0x1B, 0x20, (0x22 : BitVec 8)], ¬Reserved sel) ∧
    (startWith [⟨0x23, []⟩]).program = ⟨0x23, []⟩ :: [] := by
  unfold Reserved
  exact ⟨by decide, by decide, rfl⟩

theorem witness_StepRunsTheDecodedInstruction :
    (startWith [⟨0x02, [.regid 0]⟩, ⟨0x22, []⟩]).program = ⟨0x02, [.regid 0]⟩ :: [⟨0x22, []⟩] ∧
    decode ⟨0x02, [.regid 0]⟩ = .ok (.pack 0) := ⟨rfl, rfl⟩

theorem witness_StepWithoutAnInstruction :
    start.program = [] ∧ (startWith [⟨0x02, []⟩]).program = ⟨0x02, []⟩ :: [] ∧
    decode ⟨0x02, []⟩ = .error (.operandsDoNotFit .pack) := ⟨rfl, rfl, rfl⟩

/-- The two ends of the range, just outside them, and the two ways not to name a field. -/
theorem witness_SetfieldWritesOneCellWithinRange :
    start.Inv ∧ start.HasField 1 1 ⟨"g_sel", 4, 2, 9, 2⟩ ∧
    ((2 : Word) ≤ 2 ∧ (2 : Word) ≤ 9) ∧ ((2 : Word) ≤ 9 ∧ (9 : Word) ≤ 9) ∧
    (∀ v ∈ [1, (10 : Word)],
      ¬∃ f, start.HasField 1 1 f ∧ f.minValue ≤ v ∧ v ≤ f.maxValue) ∧
    (¬∃ f, start.HasField 6 0 f ∧ f.minValue ≤ 0 ∧ 0 ≤ f.maxValue) ∧
    ¬∃ f, start.HasField 5 0 f ∧ f.minValue ≤ 0 ∧ 0 ≤ f.maxValue := by
  refine ⟨start_inv, start_gSel, by decide, by decide, ?_, ?_, ?_⟩
  · rintro v hv ⟨f, ⟨g, hg, hf⟩, hr⟩
    obtain rfl := Option.some.inj hg.symm
    obtain rfl := Option.some.inj hf.symm
    simp only [List.mem_cons, List.not_mem_nil, or_false] at hv
    rcases hv with rfl | rfl <;> exact absurd hr (by decide)
  · rintro ⟨f, hf, -⟩
    exact start_noField (by decide) ⟨f, hf⟩
  · rintro ⟨f, hf, -⟩
    exact start_noField (by decide) ⟨f, hf⟩

theorem witness_RangeRejectionLeavesThePackedWord :
    ∃ t, exec (.setfield 0 1 16) start = .next t ∧ t.response = some (.failed .rangeErr) :=
  ⟨_, exec_after _ _, by decide⟩

theorem witness_PackReturnsTheSumOfShiftedCells :
    start.Inv ∧ (∃ g, start.registers[1]? = some g ∧ g.fields ≠ []) ∧
    start.registers[6]? = none ∧ ∃ g, start.registers[5]? = some g ∧ g.fields = [] :=
  ⟨start_inv, ⟨_, rfl, by decide⟩, by decide, ⟨_, rfl, rfl⟩⟩

/-- Bit 4 of the word is the top bit of field 1; bit 7 is the first of no field. -/
theorem witness_PackedFieldsStandAtTheirOffsets :
    start.Inv ∧ ∃ g t, start.registers[1]? = some g ∧ exec (.pack 1) start = .next t ∧
      t.response = some (.ok (.word 0x24)) ∧
      g.fields[1]? = some ⟨"g_sel", 4, 2, 9, 2⟩ ∧ 3 < 4 ∧ totalWidth g.fields ≤ 7 :=
  ⟨start_inv, _, _, rfl, exec_after _ _, by decide, rfl, by decide, by decide⟩

theorem witness_DecodeWritesEveryReadCell :
    start.Inv ∧ (∃ g, start.registers[1]? = some g ∧ g.fields[2]? = some ⟨"g_mode", 2, 0, 2, 1⟩) ∧
    (0 ≠ 1) ∧ start.registers[6]? = none :=
  ⟨start_inv, ⟨_, rfl, rfl⟩, by decide, by decide⟩

theorem witness_ReadWordAfterDecode :
    start.Inv ∧ ∃ g t, start.registers[2]? = some g ∧
      exec (.decode 2 0x123456AB) start = .next t ∧ totalWidth g.fields = 32 :=
  ⟨start_inv, _, _, rfl, exec_after _ _, by decide⟩

theorem witness_DecodeOfPackReproducesTheFields :
    start.Inv ∧ ∃ g t, start.registers[1]? = some g ∧ g.fields ≠ [] ∧ 2 < g.fields.length ∧
      exec (.decode 1 0xFFFFFFD3) start = .next t ∧ 6 < totalWidth g.fields :=
  ⟨start_inv, _, _, rfl, by decide, by decide, exec_after _ _, by decide⟩

theorem witness_GetfieldReturnsBothCells :
    start.HasField 1 1 ⟨"g_sel", 4, 2, 9, 2⟩ ∧ (¬∃ f, start.HasField 0 2 f) ∧
    ¬∃ f, start.HasField 6 0 f :=
  ⟨start_gSel, start_noField (by decide), start_noField (by decide)⟩

/-- The registers of `T` with register 3 in the other family. -/
def registersOtherFamily : List RegisterDesc :=
  vectorConfig.registers.set 3 ⟨.config, 0x000, [⟨"ack_hdr", 32, 0, 0xFFFFFFFF, 0⟩]⟩

theorem witness_FamilyHasNoEffect :
    ∃ (c : Config) (t : State), c.raw = { start.config.raw with registers := registersOtherFamily } ∧
      registersOtherFamily.map (fun g => (g.address, g.fields)) =
        start.registers.map (fun g => (g.address, g.fields)) ∧
      registersOtherFamily ≠ start.registers ∧ exec (.pack 3) start = .next t :=
  ⟨⟨{ vectorConfig with registers := registersOtherFamily }, by decide⟩, _, rfl, by decide, by decide,
    exec_after _ _⟩

theorem witness_LookupFindsExactlyTheNamedField :
    start.HasField 1 1 ⟨"g_sel", 4, 2, 9, 2⟩ ∧
    ∀ r i f, start.HasField r i f → f.name ≠ "nope" := by
  refine ⟨start_gSel, ?_⟩
  rintro r i f ⟨g, hg, hf⟩
  have h : ∀ g ∈ start.registers, ∀ f ∈ g.fields, f.name ≠ "nope" := by decide
  exact h g (List.mem_of_getElem? hg) f (List.mem_of_getElem? hf)

theorem witness_AccessorsAfterDecode :
    start.Inv ∧ 4 ≤ totalWidth (start.fieldsOf start.config.raw.idReg) ∧
    totalWidth (start.fieldsOf start.config.raw.fwReg) = 32 ∧
    ∃ t, exec (.decode start.config.raw.idReg 0x2309151A) start = .next t ∧
      exec (.decode start.config.raw.fwReg 0x2309151A) start = .next t :=
  ⟨start_inv, by decide, by decide, _, exec_after _ _, exec_after _ _⟩

/-- A ragged chunk in `BYTE` mode and in `WORD` mode; in `WORD` mode also an empty chunk and a word. -/
theorem witness_PushCutsWordsAndRecords :
    (∀ c ∈ [[], [0xD3], bytesMarker],
      ¬(start.config.raw.chunkMode = .word ∧ c.length % 4 ≠ 0)) ∧
    (startWord.config.raw.chunkMode = .word ∧ [(0xD3 : Byte)].length % 4 ≠ 0) ∧
    ∀ c ∈ [[], bytesMarker], ¬(startWord.config.raw.chunkMode = .word ∧ c.length % 4 ≠ 0) := by
  decide

theorem witness_PushCountsRecordsWordsAndBytes :
    ∃ t, exec (.push (bytesA ++ [0x1E])) start = .next t ∧
      t.response = some (.ok (.records [recordA] false)) :=
  ⟨_, exec_after _ _, by decide⟩

theorem witness_FormatErrorExactlyOnRaggedChunks :
    (∃ t, exec (.push [0xD3]) startWord = .next t ∧ t.response = some (.failed .formatErr)) ∧
    (∃ t, exec (.pushraw [0, 0, 0, 0, 0]) startWord = .next t ∧
      t.response = some (.failed .formatErr)) ∧
    ∃ t, exec (.push bytesMarker) startWord = .next t ∧ t.response ≠ some (.failed .formatErr) :=
  ⟨⟨_, exec_after _ _, by decide⟩, ⟨_, exec_after _ _, by decide⟩, ⟨_, exec_after _ _, by decide⟩⟩

/-- A chunk of exactly 4 bytes that is the marker, and the same chunk under another marker. -/
theorem witness_EndOfRunIsTheLastFourBytesOfTheChunk :
    ∃ (d : Config) (t u : State), d.raw = { start.config.raw with eorMarker := 0 } ∧
      exec (.push bytesMarker) start = .next t ∧ t.response = some (.ok (.records [] true)) ∧
      exec (.push bytesMarker) { start with config := d } = .next u ∧
      u.response = some (.ok (.records [] false)) :=
  ⟨⟨{ vectorConfig with eorMarker := 0 }, by decide⟩, _, _, rfl, exec_after _ _, by decide,
    exec_after _ _, by decide⟩

theorem witness_PushrawKeepsTheBooksOfPush :
    ¬(start.config.raw.chunkMode = .word ∧ [0xD3, (0 : Byte)].length % 4 ≠ 0) ∧
    startWord.config.raw.chunkMode = .word ∧ [0xD3, (0 : Byte)].length % 4 ≠ 0 := by decide

theorem witness_RecordsDoNotDependOnTheSplit :
    start.carry = [] ∧ start.resid = [] ∧ start.config.raw.chunkMode = .byte ∧
    startWord.carry = [] ∧ startWord.resid = [] ∧ startWord.config.raw.chunkMode = .word ∧
    (∀ c ∈ [bytesMarker, bytesA], c.length % 4 = 0) ∧ [(0xD3 : Byte)].length % 4 ≠ 0 := by decide

/-- Both clauses: a last chunk that is the marker, and one that is not. -/
theorem witness_SentinelIsReportedOnceOnItsChunk :
    start.config.raw.chunkMode = .byte ∧ (∀ c ∈ [bytesA] ++ [bytesMarker], c.length % 4 = 0) ∧
    (∀ c ∈ [bytesA], ¬markerBytes start.config.raw.eorMarker <:+ c) ∧
    4 ≤ bytesMarker.length ∧
    markerBytes start.config.raw.eorMarker <:+ ([bytesA] ++ [bytesMarker]).flatten ∧
    ¬markerBytes start.config.raw.eorMarker <:+ bytesB := by decide

/-- A mixed run with an accepted `PUSH` and `PUSHRAW` and a codec operation. -/
theorem witness_DecoderStateIsAFunctionOfTheStream :
    start.carry = [] ∧ start.resid = [] ∧
    .rststrm ∉ [Instr.push [0xD3], .pack 0, .pushraw [0, 0, 0xA5, 0xEF, 0xCD]] ∧
    ∃ t ps, runInstrs [.push [0xD3], .pack 0, .pushraw [0, 0, 0xA5, 0xEF, 0xCD]] start
        = some (t, ps) ∧ 0 < t.carry.length :=
  ⟨rfl, rfl, by decide, _, _, rfl, by decide⟩

/-- A run without `PUSHRAW`, one of its chunks refused in `WORD` mode. -/
theorem witness_NoByteIsLostOrUsedTwice :
    startWord.carry = [] ∧ startWord.resid = [] ∧
    .rststrm ∉ [Instr.push [0xD3], .push bytesA] ∧
    (∀ c, .pushraw c ∉ [Instr.push [0xD3], .push bytesA]) ∧
    ∃ t ps, runInstrs [.push [0xD3], .push bytesA] startWord = some (t, ps) ∧
      acceptedStream [.push [0xD3], .push bytesA] ps = bytesA :=
  ⟨rfl, rfl, by decide, by simp, _, _, rfl, by decide⟩

/-- A reset, a chunk that completes a word in a stream of 7 bytes, and one `CHUNK_MODE` refuses. -/
theorem witness_EveryOperationExtendsTheStream :
    (after (.push (bytesA.take 7)) start).HoldsStream (bytesA.take 7) ∧
    startWord.HoldsStream [] ∧
    (∃ t, exec .rststrm (after (.push (bytesA.take 7)) start) = .next t) ∧
    (∃ t, exec (.push [0]) (after (.push (bytesA.take 7)) start) = .next t ∧ t.resid = []) ∧
    ∃ t, exec (.push [0xD3]) startWord = .next t ∧ t.response = some (.failed .formatErr) :=
  ⟨⟨by decide, by decide, by decide⟩, ⟨by decide, by decide, by decide⟩, ⟨_, exec_after _ _⟩,
    ⟨_, exec_after _ _, by decide⟩, ⟨_, exec_after _ _, by decide⟩⟩

theorem witness_StatusesOfEachOperation :
    (∃ t, exec (.pack 5) start = .next t ∧ t.response = some (.failed .emptyErr)) ∧
    (∃ t, exec (.lookup "nope") start = .next t ∧ t.response = some (.failed .lookupErr)) ∧
    ∃ t, exec (.push [0xD3]) startWord = .next t ∧ t.response = some (.failed .formatErr) :=
  ⟨⟨_, exec_after _ _, by decide⟩, ⟨_, exec_after _ _, by decide⟩, ⟨_, exec_after _ _, by decide⟩⟩

/-- Each operation that can fail so, at the first register id and field index out of bounds. -/
theorem witness_RangeErrorCauses :
    ∀ i ∈ [.setfield 1 1 10, .setfield 1 3 0, .getfield 0 2, .pack 6, Instr.decode 6 0],
      ∃ t, exec i start = .next t ∧ t.response = some (.failed .rangeErr) := by
  intro i hi
  refine ⟨_, exec_after _ _, ?_⟩
  revert i
  decide

theorem witness_FailureLeavesNoTrace :
    (∃ t, exec (.pack 6) start = .next t ∧ t.response = some (.failed .rangeErr)) ∧
    ∃ t, (startWith [⟨0x00, []⟩]).program = ⟨0x00, []⟩ :: [] ∧
      step (startWith [⟨0x00, []⟩]) = .next t ∧ t.response = some (.failed .illegalOp) :=
  ⟨⟨_, exec_after _ _, by decide⟩, _, rfl, rfl, rfl⟩

/-- One operation of each kind of writer, and that it does write. -/
theorem witness_WhoWritesEachPieceOfState :
    (∃ t, exec (.setfield 1 1 9) start = .next t ∧ t.setCells ≠ start.setCells) ∧
    (∃ t, exec (.decode 1 0) start = .next t ∧ t.readCells ≠ start.readCells) ∧
    ∃ t, exec (.push [0xD3]) start = .next t ∧ t.resid ≠ start.resid :=
  ⟨⟨_, exec_after _ _, by decide⟩, ⟨_, exec_after _ _, by decide⟩, ⟨_, exec_after _ _, by decide⟩⟩

/-- A step that writes. -/
theorem witness_InvIsKeptByEveryStep :
    ∃ s t : State, s.Inv ∧ step s = .next t ∧ t.setCells ≠ s.setCells :=
  ⟨startWith [⟨0x01, [.regid 1, .fidx 1, .u32 9]⟩], after (.setfield 1 1 9) start,
    ⟨by decide, by decide, by decide, by decide, by decide, by decide⟩, rfl, by decide⟩

theorem witness_ShapeIsImmutable :
    ∃ s t : State, s.Inv ∧ step s = .next t ∧ t.setCells ≠ s.setCells :=
  witness_InvIsKeptByEveryStep

theorem witness_PureIdempotentAndConsumingOperations :
    isPureInstr (.getfield 1 1) = true ∧ start.Inv ∧
    (∃ t, exec (.getfield 1 1) start = .next t) ∧ (∃ t, exec (.setfield 1 1 9) start = .next t) ∧
    ∃ t, exec .rststrm start = .next t :=
  ⟨rfl, start_inv, ⟨_, exec_after _ _⟩, ⟨_, exec_after _ _⟩, ⟨_, exec_after _ _⟩⟩

theorem witness_TheTwoHalvesShareNoState :
    isStreamInstr (.pack 0) = false ∧ (∃ t, exec (.pack 0) start = .next t) ∧
    isStreamInstr (.push [0xD3]) = true ∧ ∃ t, exec (.push [0xD3]) start = .next t :=
  ⟨rfl, ⟨_, exec_after _ _⟩, rfl, ⟨_, exec_after _ _⟩⟩

theorem witness_GetfieldSeesTheLatestSetfield :
    start.Inv ∧ ∃ t u ps, exec (.setfield 1 1 9) start = .next t ∧
      t.response = some (.ok .nothing) ∧
      (∀ v', .setfield 1 1 v' ∉ [Instr.setfield 0 1 7, .decode 1 0]) ∧
      runInstrs [.setfield 0 1 7, .decode 1 0] t = some (u, ps) :=
  ⟨start_inv, _, _, _, exec_after _ _, by decide, by simp, rfl⟩

/-- An accepted configuration and a refused one. -/
theorem witness_ConstructionChecksEveryCondition :
    construct vectorConfig = .ok (State.ofConfig vector) ∧
    construct { vectorConfig with ackHdrReg := 0 } = .error ⟨.w9, .role .ackHdrReg⟩ := ⟨rfl, rfl⟩

/-- `ConstructionLoadsTheDefaults`, at the first field and at the last of the catalog. -/
theorem witness_ConstructionLoadsTheDefaults :
    construct vectorConfig = .ok (State.ofConfig vector) ∧
    (State.ofConfig vector).HasField 0 0 ⟨"e_lo", 12, 0, 4095, 100⟩ ∧
    (State.ofConfig vector).HasField 4 0 ⟨"ack_data", 32, 0, 0xFFFFFFFF, 0⟩ :=
  ⟨rfl, ⟨_, rfl, rfl⟩, ⟨_, rfl, rfl⟩⟩

/-- The reset state has a field: the acknowledge header of its configuration (W9). -/
theorem witness_ResetStateHoldsTheDefaults : ∃ r f, State.reset.HasField r 0 f := by
  obtain ⟨-, -, -, ⟨g, hg, hw⟩, -⟩ := Config.roles_valid Config.board
  rcases hf : g.fields with _ | ⟨f, fs⟩
  · simp [hf] at hw
  · exact ⟨_, f, g, hg, by simp [hf]⟩

/-- `T` with one register in both acknowledge roles. -/
def vectorOneAck : Config := ⟨{ vectorConfig with ackDataReg := 3 }, by decide⟩

/-- `start` with one register in both acknowledge roles. -/
def startOneAck : State := { start with config := vectorOneAck }

/-- With two acknowledge registers, and with one. -/
theorem witness_WriteTransactionSendsAndDecodes :
    start.Inv ∧ (∃ g, start.registers[1]? = some g ∧ g.fields ≠ []) ∧ 4 ≤ 4 ∧
    start.HasField start.config.raw.ackDataReg 0 ⟨"ack_data", 32, 0, 0xFFFFFFFF, 0⟩ ∧
    start.config.raw.ackHdrReg ≠ start.config.raw.ackDataReg ∧
    startOneAck.Inv ∧ (∃ g, startOneAck.registers[1]? = some g ∧ g.fields ≠ []) ∧
    startOneAck.HasField startOneAck.config.raw.ackDataReg 0 ⟨"ack_hdr", 32, 0, 0xFFFFFFFF, 0⟩ ∧
    startOneAck.config.raw.ackHdrReg = startOneAck.config.raw.ackDataReg :=
  ⟨start_inv, ⟨_, rfl, by decide⟩, by decide, ⟨_, rfl, rfl⟩, by decide,
    ⟨by decide, by decide, by decide, by decide, by decide, by decide⟩, ⟨_, rfl, by decide⟩,
    ⟨_, rfl, rfl⟩, rfl⟩

/-- Of another register than `ACK_HDR_REG`, and of that register. -/
theorem witness_ReadTransactionDecodesTheTarget :
    start.Inv ∧ 4 ≤ 4 ∧ start.config.raw.ackHdrReg ≠ 2 ∧
    (∃ g, start.registers[2]? = some g ∧ g.fields[1]? = some ⟨"fw_date", 24, 0, 0xFFFFFF, 0⟩) ∧
    ∃ g, start.registers[start.config.raw.ackHdrReg]? = some g ∧
      g.fields[0]? = some ⟨"ack_hdr", 32, 0, 0xFFFFFFFF, 0⟩ :=
  ⟨start_inv, by decide, by decide, ⟨_, rfl, rfl⟩, ⟨_, rfl, rfl⟩⟩

/-- A short count fails each procedure, a full exchange completes a field write, and an answer that
never comes hangs it. -/
theorem witness_FailedTransactionsLeaveNoTrace :
    start.Inv ∧
    (writeTransaction 1 1 ⟨.sent 3, .sent 4, .error⟩ start).outcome ≠ .completed ∧
    (readTransaction 1 1 ⟨.sent 4, .error, .received [0]⟩ start).outcome ≠ .completed ∧
    (writeFields 1 1 [(1, 9)] ⟨.sent 4, .sent 3, .error⟩ start).outcome = .failed .transportErr ∧
    ([(1, 9), (2, (0 : Word))].map (·.1)).Nodup ∧
    (writeFields 1 1 [(1, 9), (2, 0)]
      ⟨.sent 4, .sent 4, .received [0, 0, 0, 1, 0, 0, 0, 2]⟩ start).outcome = .completed ∧
    (writeFields 1 1 [(1, 9), (2, 0)] ⟨.sent 4, .sent 4, .never⟩ start).outcome = .hung :=
  ⟨start_inv, by decide, by decide, by decide, by decide, by decide, by decide⟩

end Sys2Proof.Tests
end

section
/-! PROOF. The step on the host's next request (`00_scope.md` R5, `30_encoding.md` R70, R88). -/

namespace Sys2Proof.Machine

/-- R88: the request issued is the first of the host's list, and it is taken off the list. -/
theorem fetch_of_program_cons {s : State} {q : Request} {rest : List Request}
    (hp : s.program = q :: rest) : fetch s = some (q, { s with program := rest }) := by
  simp only [fetch, hp]

theorem step_of_fetch_of_decode_ok {s t : State} {q : Request} {i : Instr}
    (hf : fetch s = some (q, t)) (hd : decode q = .ok i) : step s = exec i t := by
  simp only [step, hf, hd]

/-- Settles O3: the fetch issues the first request, and the step then runs what it decodes to. -/
theorem stepRunsTheDecodedInstruction : Obligations.StepRunsTheDecodedInstruction :=
  fun _ _ _ _ hp hd => step_of_fetch_of_decode_ok (fetch_of_program_cons hp) hd

end Sys2Proof.Machine
end

section
/-! PROOF. What each operation writes (`10_state.md` R28, R32, R33), said once, and what follows for
the frame and the invariant of the block. -/

namespace Sys2Proof.Machine

/-! ### What a successful operation does -/

/-- The results `res` and the state `u` with which an operation succeeds from `s`: the operations that
write no state together, each writer on its own. -/
inductive Effect (s : State) : Instr → Results → State → Prop
  | pure {i : Instr} {res : Results} (hpure : isPureInstr i = true)
      (hrec : responseRecords (.ok res) = []) : Effect s i res s
  | setfield {r i : Nat} {v : Word} {g : RegisterDesc} {f : FieldDesc}
      (hg : s.registers[r]? = some g) (hf : g.fields[i]? = some f)
      (hmin : f.minValue ≤ v) (hmax : v ≤ f.maxValue) :
      Effect s (.setfield r i v) .nothing (s.writeSet r i v)
  | decode {r : Nat} {w : Word} {g : RegisterDesc} (hg : s.registers[r]? = some g) :
      Effect s (.decode r w) .nothing (s.decodeInto r w)
  | push {c : List Byte} (hc : chunkRefused s.config.raw.chunkMode c = false) :
      Effect s (.push c)
        (.records ((acceptChunk c s).1.map
            (decodeRecord s.config.raw.recLayout s.config.raw.chHiPos))
          (endOfRun s.config.raw.eorMarker c))
        (acceptChunk c s).2
  | pushraw {c : List Byte} (hc : chunkRefused s.config.raw.chunkMode c = false) :
      Effect s (.pushraw c) (.raw c (endOfRun s.config.raw.eorMarker c)) (acceptChunk c s).2
  | rststrm : Effect s .rststrm .nothing (s.writeDecoder [] [])

variable {s t u : State} {res : Results}

theorem effect_setfield {r i : Nat} {v : Word} (h : setfield r i v s = .ok (u, res)) :
    Effect s (.setfield r i v) res u := by
  unfold setfield at h
  cases hf : resolveField s r i with
  | error e => simp [hf] at h
  | ok f =>
    obtain ⟨g, hg, hgf⟩ := resolveField_ok_iff.1 hf
    by_cases hmin : v < f.minValue
    · simp [hf, hmin] at h
    by_cases hmax : f.maxValue < v
    · simp [hf, hmin, hmax] at h
    · simp only [hf, hmin, hmax, if_false, Except.ok.injEq, Prod.mk.injEq] at h
      obtain ⟨rfl, rfl⟩ := h
      exact .setfield hg hgf (BitVec.not_lt.1 hmin) (BitVec.not_lt.1 hmax)

/-- A `PACK` that succeeds hands back the packed word and writes nothing. -/
theorem pack_eq_ok {r : Nat} (h : pack r s = .ok (u, res)) :
    ∃ w, packRegister r s = .ok w ∧ u = s ∧ res = .word w := by
  unfold pack at h
  cases hw : packRegister r s with
  | error e => simp [hw] at h
  | ok w =>
    simp only [hw, Except.ok.injEq, Prod.mk.injEq] at h
    exact ⟨w, rfl, h.1.symm, h.2.symm⟩

theorem effect_pack {r : Nat} (h : pack r s = .ok (u, res)) : Effect s (.pack r) res u := by
  obtain ⟨w, -, rfl, rfl⟩ := pack_eq_ok h
  exact .pure rfl rfl

theorem effect_decode {r : Nat} {w : Word} (h : decodeWord r w s = .ok (u, res)) :
    Effect s (.decode r w) res u := by
  unfold decodeWord at h
  cases hg : resolveRegister s r with
  | error e => simp [hg] at h
  | ok g =>
    simp only [hg, Except.ok.injEq, Prod.mk.injEq] at h
    obtain ⟨rfl, rfl⟩ := h
    exact .decode (resolveRegister_ok_iff.1 hg)

theorem effect_getfield {r i : Nat} (h : getfield r i s = .ok (u, res)) :
    Effect s (.getfield r i) res u := by
  unfold getfield at h
  cases hf : resolveField s r i with
  | error e => simp [hf] at h
  | ok f =>
    simp only [hf, Except.ok.injEq, Prod.mk.injEq] at h
    obtain ⟨rfl, rfl⟩ := h
    exact .pure rfl rfl

theorem effect_lookup {n : String} (h : lookup n s = .ok (u, res)) :
    Effect s (.lookup n) res u := by
  unfold lookup at h
  cases hn : s.nameMap n with
  | none => simp [hn] at h
  | some l =>
    simp only [hn, Except.ok.injEq, Prod.mk.injEq] at h
    obtain ⟨rfl, rfl⟩ := h
    exact .pure rfl rfl

theorem effect_push {c : List Byte} (h : push c s = .ok (u, res)) : Effect s (.push c) res u := by
  unfold push at h
  cases hc : chunkRefused s.config.raw.chunkMode c with
  | true => simp [hc] at h
  | false =>
    simp only [hc, Bool.false_eq_true, if_false, Except.ok.injEq, Prod.mk.injEq] at h
    obtain ⟨rfl, rfl⟩ := h
    exact .push hc

theorem effect_pushraw {c : List Byte} (h : pushraw c s = .ok (u, res)) :
    Effect s (.pushraw c) res u := by
  unfold pushraw at h
  cases hc : chunkRefused s.config.raw.chunkMode c with
  | true => simp [hc] at h
  | false =>
    simp only [hc, Bool.false_eq_true, if_false, Except.ok.injEq, Prod.mk.injEq] at h
    obtain ⟨rfl, rfl⟩ := h
    exact .pushraw hc

/-- A value computed from the state alone, with no record in it, is a pure effect. -/
theorem effect_of_pure {i : Instr} {r : Results} (hpure : isPureInstr i = true)
    (hrec : responseRecords (.ok r) = [])
    (h : (.ok (s, r) : Except Failure (State × Results)) = .ok (u, res)) : Effect s i res u := by
  obtain ⟨rfl, rfl⟩ := Prod.mk.inj (Except.ok.inj h)
  exact .pure hpure hrec

/-- What each operation can do on success. -/
theorem operation_effect {i : Instr} (h : operation i s = .ok (u, res)) : Effect s i res u := by
  cases i with
  | setfield r j v => exact effect_setfield h
  | pack r => exact effect_pack h
  | decode r w => exact effect_decode h
  | getfield r j => exact effect_getfield h
  | lookup n => exact effect_lookup h
  | push c => exact effect_push h
  | pushraw c => exact effect_pushraw h
  | rststrm =>
    obtain ⟨rfl, rfl⟩ := Prod.mk.inj (Except.ok.inj h)
    exact .rststrm
  | wordmsb b => exact effect_of_pure rfl rfl h
  | bytesmsb w => exact effect_of_pure rfl rfl h
  | wordlsb b => exact effect_of_pure rfl rfl h
  | mkinstr a m rw => exact effect_of_pure rfl rfl h
  | boardaddr => exact effect_of_pure rfl rfl h
  | fwversion => exact effect_of_pure rfl rfl h
  | fwdate => exact effect_of_pure rfl rfl h

/-- What an instruction can do: hand back the results of its effect, or a failure in the state it
began with. -/
theorem exec_effect {i : Instr} (h : exec i s = .next t) :
    (∃ u res, Effect s i res u ∧ t = u.respond (.ok res)) ∨ ∃ e, t = s.fail e := by
  rcases exec_cases h with ⟨u, res, ho, ht⟩ | ⟨e, -, ht⟩
  · exact .inl ⟨u, res, operation_effect ho, ht⟩
  · exact .inr ⟨e, ht⟩

/-- Every operation hands back one response (`30_encoding.md` R73). -/
theorem exec_response {i : Instr} (h : exec i s = .next t) : ∃ p, t.response = some p := by
  rcases exec_cases h with ⟨u, res, -, rfl⟩ | ⟨e, -, rfl⟩
  · exact ⟨_, State.respond_response _ _⟩
  · exact ⟨_, State.fail_response _ _⟩

/-! ### Who writes what -/

theorem exec_setCells_of_ne_setfield {i : Instr} (h : exec i s = .next t)
    (hi : ∀ r j v, i ≠ .setfield r j v) : t.setCells = s.setCells := by
  rcases exec_effect h with ⟨u, res, he, rfl⟩ | ⟨e, rfl⟩
  · cases he with
    | setfield => exact absurd rfl (hi _ _ _)
    | pure | decode | push | pushraw | rststrm => rfl
  · rfl

theorem exec_readCells_of_ne_decode {i : Instr} (h : exec i s = .next t)
    (hi : ∀ r w, i ≠ .decode r w) : t.readCells = s.readCells := by
  rcases exec_effect h with ⟨u, res, he, rfl⟩ | ⟨e, rfl⟩
  · cases he with
    | decode => exact absurd rfl (hi _ _)
    | pure | setfield | push | pushraw | rststrm => rfl
  · rfl

theorem exec_decoder_of_not_stream {i : Instr} (h : exec i s = .next t)
    (hi : isStreamInstr i = false) : t.carry = s.carry ∧ t.resid = s.resid := by
  rcases exec_effect h with ⟨u, res, he, rfl⟩ | ⟨e, rfl⟩
  · cases he with
    | push | pushraw | rststrm => cases hi
    | pure | setfield | decode => exact ⟨rfl, rfl⟩
  · exact ⟨rfl, rfl⟩

theorem exec_config_program {i : Instr} (h : exec i s = .next t) :
    t.config = s.config ∧ t.program = s.program := by
  rcases exec_effect h with ⟨u, res, he, rfl⟩ | ⟨e, rfl⟩
  · cases he with
    | pure | setfield | decode | push | pushraw | rststrm => exact ⟨rfl, rfl⟩
  · exact ⟨rfl, rfl⟩

/-- Settles O39: an operation that is not among the writers of a piece of state leaves that piece. -/
theorem whoWritesEachPieceOfState : Obligations.WhoWritesEachPieceOfState := by
  intro i s t h
  refine ⟨fun hne => ?_, fun hne => ?_, fun hne => ?_, exec_config_program h⟩
  · by_contra hi
    exact hne (exec_setCells_of_ne_setfield h fun r j v hrv => hi ⟨r, j, v, hrv⟩)
  · by_contra hi
    exact hne (exec_readCells_of_ne_decode h fun r w hrw => hi ⟨r, w, hrw⟩)
  · by_contra hi
    obtain ⟨hc, hr⟩ := exec_decoder_of_not_stream h (Bool.eq_false_iff.2 hi)
    exact hne.elim (· hc) (· hr)

/-! ### The invariant -/

/-- The invariant speaks of the configuration, the store and the DecoderState alone. -/
theorem State.Inv.of_fields_eq (hI : s.Inv) (hconfig : t.config = s.config)
    (hset : t.setCells = s.setCells) (hread : t.readCells = s.readCells)
    (hcarry : t.carry = s.carry) (hresid : t.resid = s.resid) : t.Inv := by
  obtain ⟨config, setCells, readCells, carry, resid, program, response⟩ := t
  cases hconfig; cases hset; cases hread; cases hcarry; cases hresid
  exact ⟨hI.setShape, hI.readShape, hI.setInRange, hI.carryBound, hI.residBound, hI.wordMode⟩

theorem State.Inv.respond (hI : s.Inv) (p : Response) : (s.respond p).Inv :=
  hI.of_fields_eq rfl rfl rfl rfl rfl

theorem State.Inv.fail (hI : s.Inv) (e : Failure) : (s.fail e).Inv := hI.respond _

/-- R29: writing a value of a field's range to its `SET` cell keeps the invariant. -/
theorem State.Inv.writeSet (hI : s.Inv) {r i : Nat} {v : Word} {g : RegisterDesc} {f : FieldDesc}
    (hg : s.registers[r]? = some g) (hf : g.fields[i]? = some f) (hmin : f.minValue ≤ v)
    (hmax : v ≤ f.maxValue) : (s.writeSet r i v).Inv where
  setShape := by
    rw [State.writeSet_setCells, lengths_set (by simp [State.setRow])]
    exact hI.setShape
  readShape := hI.readShape
  setInRange := by
    intro e he
    by_cases hloc : (e.reg, e.idx) = (r, i)
    · obtain ⟨hr, hlen⟩ := row_length hI.setShape hg
      have hi : i < (s.setRow r).length := hlen ▸ (List.getElem?_eq_some_iff.1 hf).1
      obtain ⟨heg, hef⟩ := RawConfig.mem_fieldList.1 he
      obtain ⟨rfl, rfl⟩ := Prod.mk.inj hloc
      obtain rfl : g = e.register := Option.some.inj (hg.symm.trans heg)
      obtain rfl : f = e.field := Option.some.inj (hf.symm.trans hef)
      rw [State.writeSet_setCell_self hr hi]
      exact ⟨hmin, hmax⟩
    · rw [State.writeSet_setCell_ne hloc]
      exact hI.setInRange e he
  carryBound := hI.carryBound
  residBound := hI.residBound
  wordMode := hI.wordMode

/-- R30: decoding into a register keeps the invariant. -/
theorem State.Inv.decodeInto (hI : s.Inv) {r : Nat} {g : RegisterDesc}
    (hg : s.registers[r]? = some g) (w : Word) : (s.decodeInto r w).Inv where
  setShape := hI.setShape
  readShape := by
    have hlen : (splitWord w 0 (s.fieldsOf r)).length = (rowOf s.readCells r).length := by
      rw [splitWord_length, State.fieldsOf_eq hg, (row_length hI.readShape hg).2]
    rw [State.decodeInto, State.writeReadRow_readCells, lengths_set hlen]
    exact hI.readShape
  setInRange := hI.setInRange
  carryBound := hI.carryBound
  residBound := hI.residBound
  wordMode := hI.wordMode

theorem State.Inv.writeDecoder (hI : s.Inv) {ws : List Word} {bs : List Byte}
    (hws : ws.length ≤ 5) (hbs : bs.length ≤ 3)
    (hword : s.config.raw.chunkMode = .word → bs = []) : (s.writeDecoder ws bs).Inv :=
  ⟨hI.setShape, hI.readShape, hI.setInRange, hws, hbs, hword⟩

/-- R163: in `WORD` mode an accepted chunk is a whole number of words. -/
theorem length_mod_of_not_refused {c : List Byte}
    (h : chunkRefused .word c = false) : c.length % 4 = 0 := by
  simpa [chunkRefused] using h

/-- R32, R33, R163: taking in an accepted chunk keeps the invariant. -/
theorem State.Inv.acceptChunk (hI : s.Inv) {c : List Byte}
    (hc : chunkRefused s.config.raw.chunkMode c = false) : (acceptChunk c s).2.Inv := by
  obtain ⟨-, hcarry, hresid⟩ := acceptChunk_lengths c s
  rw [acceptChunk_state, State.writeDecoder_carry] at hcarry
  rw [acceptChunk_state, State.writeDecoder_resid] at hresid
  refine hI.writeDecoder (by omega) (by omega) fun hword => List.length_eq_zero_iff.1 ?_
  have hmod := length_mod_of_not_refused (hword ▸ hc)
  rw [hresid, hI.wordMode hword, List.length_nil, Nat.zero_add, hmod]

/-- Every effect keeps the invariant. -/
theorem Effect.inv {i : Instr} (he : Effect s i res u) (hI : s.Inv) : u.Inv := by
  cases he with
  | pure => exact hI
  | setfield hg hf hmin hmax => exact hI.writeSet hg hf hmin hmax
  | decode hg => exact hI.decodeInto hg _
  | push hc => exact hI.acceptChunk hc
  | pushraw hc => exact hI.acceptChunk hc
  | rststrm => exact hI.writeDecoder (by simp) (by simp) fun _ => rfl

/-- Every operation keeps the invariant. -/
theorem exec_inv {i : Instr} (hI : s.Inv) (h : exec i s = .next t) : t.Inv := by
  rcases exec_effect h with ⟨u, res, he, rfl⟩ | ⟨e, rfl⟩
  · exact (he.inv hI).respond _
  · exact hI.fail e

/-- Where a step ends in a next state: idle, after the operation of the first request, or with
`ILLEGAL_OP`. -/
theorem step_next_cases (h : step s = .next t) :
    (s.program = [] ∧ t = s) ∨ ∃ q rest, s.program = q :: rest ∧
      ((∃ i, decode q = .ok i ∧ exec i { s with program := rest } = .next t) ∨
        decode q = .error .reservedSelector ∧
          t = ({ s with program := rest } : State).fail .illegalOp) := by
  rcases step_cases s with ⟨hp, hs⟩ | ⟨q, rest, hp, ⟨i, hd, hs⟩ | ⟨hd, hs⟩ | ⟨m, -, hs⟩⟩
  · exact .inl ⟨hp, Host.Outcome.next.inj (h.symm.trans hs)⟩
  · exact .inr ⟨q, rest, hp, .inl ⟨i, hd, hs.symm.trans h⟩⟩
  · exact .inr ⟨q, rest, hp, .inr ⟨hd, Host.Outcome.next.inj (h.symm.trans hs)⟩⟩
  · cases h.symm.trans hs

/-- Settles O45: a step idles, answers `ILLEGAL_OP`, or runs an operation, and each effect keeps the
invariant. -/
theorem invIsKeptByEveryStep : Obligations.InvIsKeptByEveryStep := by
  intro s t hI h
  have hI' : ∀ rest, ({ s with program := rest } : State).Inv := fun _ =>
    hI.of_fields_eq rfl rfl rfl rfl rfl
  rcases step_next_cases h with ⟨-, rfl⟩ | ⟨q, rest, -, ⟨i, -, hx⟩ | ⟨-, rfl⟩⟩
  · exact hI
  · exact exec_inv (hI' rest) hx
  · exact (hI' rest).fail .illegalOp

theorem step_config (h : step s = .next t) : t.config = s.config := by
  rcases step_next_cases h with ⟨-, rfl⟩ | ⟨q, rest, -, ⟨i, -, hx⟩ | ⟨-, rfl⟩⟩
  · rfl
  · exact (exec_config_program hx).1
  · rfl

/-- Settles O40: the lengths of the rows are the catalog's before and after, and the configuration,
which holds the catalog, is written by no operation. -/
theorem shapeIsImmutable : Obligations.ShapeIsImmutable := by
  intro s t hI h
  have hI' : t.Inv := invIsKeptByEveryStep s t hI h
  have hconfig : t.config = s.config := step_config h
  have hreg : t.registers = s.registers := by rw [State.registers, hconfig, State.registers]
  exact ⟨hconfig, by rw [hI'.setShape, hreg, hI.setShape],
    by rw [hI'.readShape, hreg, hI.readShape]⟩

end Sys2Proof.Machine
end

section
/-! PROOF. The DecoderState as a function of the accepted stream (`10_state.md` R34, R36). -/

namespace Sys2Proof.Machine

/-! ### Cutting a stream, in closed form -/

/-- The words of a stream that begins with one whole word. -/
theorem wordsOfStream_cons (b0 b1 b2 b3 : Byte) (rest : List Byte) :
    wordsOfStream (b0 :: b1 :: b2 :: b3 :: rest) =
      lsb32 ⟨b0, b1, b2, b3⟩ :: wordsOfStream rest := by
  have hlen : (b0 :: b1 :: b2 :: b3 :: rest).length / 4 = rest.length / 4 + 1 := by
    simp only [List.length_cons]; omega
  rw [wordsOfStream, hlen, List.range_succ_eq_map, List.map_cons, List.map_map]
  rfl

theorem wordsOfStream_short {bs : List Byte} (h : bs.length < 4) : wordsOfStream bs = [] := by
  rw [wordsOfStream, Nat.div_eq_of_lt h, List.range_zero, List.map_nil]

@[simp] theorem wordsOfStream_length (bs : List Byte) :
    (wordsOfStream bs).length = bs.length / 4 := by
  simp [wordsOfStream]

theorem wordsOfStream_getElem? {bs : List Byte} {n : Nat} (h : n < bs.length / 4) :
    (wordsOfStream bs)[n]? = some (wordAt bs (4 * n)) := by
  simp [wordsOfStream, h]

/-- Cutting bytes gives the stream's words and the bytes after the last whole word. -/
theorem cutWords_eq (bs : List Byte) :
    cutWords bs = (wordsOfStream bs, bs.drop (4 * (bs.length / 4))) := by
  match bs with
  | b0 :: b1 :: b2 :: b3 :: rest =>
    have hlen : 4 * ((b0 :: b1 :: b2 :: b3 :: rest).length / 4) = 4 * (rest.length / 4) + 4 := by
      simp only [List.length_cons]; omega
    rw [cutWords, cutWords_eq rest, wordsOfStream_cons, hlen]
    rfl
  | [] | [_] | [_, _] | [_, _, _] =>
    rw [cutWords_short (by simp), wordsOfStream_short (by simp)]
    simp

/-- Grouping words leaves the words after the last whole group. -/
theorem cutGroups_snd (ws : List Word) : (cutGroups ws).2 = ws.drop (6 * (ws.length / 6)) := by
  match ws with
  | w0 :: w1 :: w2 :: w3 :: w4 :: w5 :: rest =>
    have hlen : 6 * ((w0 :: w1 :: w2 :: w3 :: w4 :: w5 :: rest).length / 6) =
        6 * (rest.length / 6) + 6 := by
      simp only [List.length_cons]; omega
    rw [cutGroups, cutGroups_snd rest, hlen]
    rfl
  | [] | [_] | [_, _] | [_, _, _] | [_, _, _, _] | [_, _, _, _, _] =>
    rw [cutGroups_short (by simp)]
    simp

/-! ### The state of a stream -/

variable {s t : State} {stream : List Byte}

/-- Entry `k` of the words after the last whole record is the word at its offset in the stream. -/
theorem getElem?_drop_wordsOfStream {q k : Nat} (h : 6 * q + k < stream.length / 4) :
    ((wordsOfStream stream).drop (6 * q))[k]? = some (wordAt stream (4 * (6 * q + k))) := by
  rw [List.getElem?_drop, wordsOfStream_getElem? h]

/-- R34: the DecoderState is that of a stream exactly when it is what cutting the stream leaves. -/
theorem State.holdsStream_iff :
    s.HoldsStream stream ↔
      s.resid = (cutWords stream).2 ∧ s.carry = (cutGroups (cutWords stream).1).2 := by
  rw [cutGroups_snd, cutWords_eq, wordsOfStream_length]
  constructor
  · rintro ⟨hresid, hlen, hcarry⟩
    refine ⟨hresid, List.ext_getElem? fun k => ?_⟩
    by_cases hk : k < s.carry.length
    · rw [hcarry k hk, getElem?_drop_wordsOfStream (by omega)]
    · rw [List.getElem?_eq_none (by omega), List.getElem?_eq_none]
      rw [List.length_drop, wordsOfStream_length]
      omega
  · rintro ⟨hresid, hcarry⟩
    have hlen : s.carry.length = stream.length / 4 % 6 := by
      rw [hcarry, List.length_drop, wordsOfStream_length]
      omega
    refine ⟨hresid, hlen, fun k hk => ?_⟩
    rw [hcarry, getElem?_drop_wordsOfStream (by omega)]

theorem State.HoldsStream.resid_length (h : s.HoldsStream stream) :
    s.resid.length = stream.length % 4 := by
  rw [h.resid, List.length_drop]
  omega

/-- The DecoderState of a stream is a matter of `CARRY` and `RESID` alone. -/
theorem State.HoldsStream.of_decoder_eq (h : s.HoldsStream stream) (hcarry : t.carry = s.carry)
    (hresid : t.resid = s.resid) : t.HoldsStream stream := by
  rw [State.holdsStream_iff] at h ⊢
  rwa [hcarry, hresid]

/-- An empty DecoderState is that of the empty stream. -/
theorem State.holdsStream_nil (hcarry : s.carry = []) (hresid : s.resid = []) :
    s.HoldsStream [] :=
  State.holdsStream_iff.2 ⟨hresid, hcarry⟩

/-- Taking in a chunk extends the stream by it: cutting goes on from what was left over. -/
theorem State.HoldsStream.acceptChunk (h : s.HoldsStream stream) (c : List Byte) :
    (acceptChunk c s).2.HoldsStream (stream ++ c) := by
  obtain ⟨hresid, hcarry⟩ := State.holdsStream_iff.1 h
  rw [State.holdsStream_iff, cutWords_append, cutGroups_append, ← hresid, ← hcarry]
  exact ⟨rfl, rfl⟩

/-! ### One operation -/

/-- The chunk an operation accepted is that of its instruction when it succeeded. -/
theorem acceptedStream_ok (i : Instr) (res : Results) :
    acceptedStream [i] [.ok res] = (chunkOf i).getD [] := by
  cases h : chunkOf i <;> simp [acceptedStream, h, Response.code]

theorem acceptedStream_failed (i : Instr) (e : Failure) :
    acceptedStream [i] [.failed e] = [] := by
  cases h : chunkOf i <;> cases e <;> simp [acceptedStream, h, Response.code, Failure.code]

theorem acceptedStream_cons (i : Instr) (is : List Instr) (p : Response) (ps : List Response) :
    acceptedStream (i :: is) (p :: ps) = acceptedStream [i] [p] ++ acceptedStream is ps := by
  simp [acceptedStream]

/-- A pure operation takes in no chunk. -/
theorem chunkOf_of_pure {i : Instr} (h : isPureInstr i = true) : chunkOf i = none := by
  cases i with
  | push | pushraw => cases h
  | _ => rfl

/-- R34: every operation but `RSTSTRM` extends the stream by the chunk it accepted. -/
theorem exec_holdsStream {i : Instr} (hs : s.HoldsStream stream) (hi : i ≠ .rststrm)
    (h : exec i s = .next t) :
    t.HoldsStream (stream ++ acceptedStream [i] t.response.toList) := by
  rcases exec_effect h with ⟨u, res, he, rfl⟩ | ⟨e, rfl⟩
  · rw [State.respond_response, Option.toList_some, acceptedStream_ok]
    refine State.HoldsStream.of_decoder_eq (s := u) ?_ rfl rfl
    cases he with
    | pure hpure => rwa [chunkOf_of_pure hpure, Option.getD_none, List.append_nil]
    | setfield | decode =>
      exact (List.append_nil stream).symm ▸ hs.of_decoder_eq rfl rfl
    | push | pushraw => exact hs.acceptChunk _
    | rststrm => exact absurd rfl hi
  · rw [State.fail_response, Option.toList_some, acceptedStream_failed, List.append_nil]
    exact hs.of_decoder_eq rfl rfl

/-- R175: after `RSTSTRM` the stream is empty. -/
theorem exec_rststrm_holdsStream (h : exec .rststrm s = .next t) : t.HoldsStream [] := by
  cases h
  exact State.holdsStream_nil rfl rfl

/-- Settles O53: a chunk taken in goes on cutting where the stream left off, and no other operation
but `RSTSTRM` writes `CARRY` or `RESID`. -/
theorem everyOperationExtendsTheStream : Obligations.EveryOperationExtendsTheStream :=
  ⟨fun _ _ _ _ hs h =>
    ⟨fun hi => exec_rststrm_holdsStream (hi ▸ h), fun hi => exec_holdsStream hs hi h⟩,
    fun _ => State.holdsStream_nil rfl rfl⟩

/-! ### Runs -/

/-- A run that does not stop runs its first operation, then the others. -/
theorem runInstrs_cons {i : Instr} {is : List Instr} {ps : List Response}
    (h : runInstrs (i :: is) s = some (t, ps)) :
    ∃ u p qs, exec i s = .next u ∧ u.response = some p ∧ runInstrs is u = some (t, qs) ∧
      ps = p :: qs := by
  rw [runInstrs] at h
  cases hx : exec i s with
  | fault r => simp [hx] at h
  | refused r => simp [hx] at h
  | next u =>
    obtain ⟨p, hp⟩ := exec_response hx
    cases hr : runInstrs is u with
    | none => simp [hx, hr] at h
    | some r =>
      simp only [hx, hr, hp, Option.some.injEq, Prod.mk.injEq] at h
      obtain ⟨rfl, rfl⟩ := h
      exact ⟨u, p, r.2, rfl, hp, hr, rfl⟩

/-- After a run with no reset in it the stream is extended by the chunks the run accepted. -/
theorem runInstrs_holdsStream {is : List Instr} {ps : List Response} (hs : s.HoldsStream stream)
    (hreset : .rststrm ∉ is) (h : runInstrs is s = some (t, ps)) :
    t.HoldsStream (stream ++ acceptedStream is ps) := by
  induction is generalizing s stream ps with
  | nil =>
    obtain ⟨rfl, rfl⟩ := Prod.mk.inj (Option.some.inj h)
    simpa [acceptedStream] using hs
  | cons i is ih =>
    have hi : i ≠ .rststrm := (List.ne_of_not_mem_cons hreset).symm
    have his : .rststrm ∉ is := List.not_mem_of_not_mem_cons hreset
    obtain ⟨u, p, qs, hx, hp, hr, rfl⟩ := runInstrs_cons h
    have hu := exec_holdsStream hs hi hx
    rw [hp, Option.toList_some] at hu
    rw [acceptedStream_cons, ← List.append_assoc]
    exact ih hu his hr

/-- Settles O33: the run starts at the empty stream, and every operation extends it. -/
theorem decoderStateIsAFunctionOfTheStream : Obligations.DecoderStateIsAFunctionOfTheStream := by
  intro s t is ps hcarry hresid hreset hrun
  have ht : t.HoldsStream (acceptedStream is ps) :=
    runInstrs_holdsStream (State.holdsStream_nil hcarry hresid) hreset hrun
  exact ⟨ht.resid_length, ht.resid, ht.carryLength, ht.carry⟩

/-! ### Counting the records -/

/-- R36: the stream position is the length of the stream modulo one record's 24 bytes. -/
theorem State.HoldsStream.streamPos (h : s.HoldsStream stream) :
    s.streamPos = stream.length % 24 := by
  rw [State.streamPos, h.carryLength, h.resid_length]
  omega

/-- A chunk completes as many groups as make up the whole records of the longer stream. -/
theorem State.HoldsStream.groups_length (h : s.HoldsStream stream) (c : List Byte) :
    stream.length / 24 + (Machine.acceptChunk c s).1.length = (stream ++ c).length / 24 := by
  rw [(acceptChunk_lengths c s).1, h.carryLength, h.resid_length, List.length_append]
  omega

/-- R182: an operation that is neither `PUSHRAW` nor `RSTSTRM` hands back the records that the chunk
it accepted completes. -/
theorem exec_records_length {i : Instr} {p : Response} (hs : s.HoldsStream stream)
    (hraw : ∀ c, i ≠ .pushraw c) (hi : i ≠ .rststrm) (h : exec i s = .next t)
    (hp : t.response = some p) :
    stream.length / 24 + (responseRecords p).length =
      (stream ++ acceptedStream [i] [p]).length / 24 := by
  rcases exec_effect h with ⟨u, res, he, rfl⟩ | ⟨e, rfl⟩
  · obtain rfl := Option.some.inj hp
    rw [acceptedStream_ok]
    cases he with
    | pure hpure hrec => simp [hrec, chunkOf_of_pure hpure]
    | setfield | decode => simp [responseRecords, chunkOf]
    | push => simpa [responseRecords, chunkOf] using hs.groups_length _
    | pushraw => exact absurd rfl (hraw _)
    | rststrm => exact absurd rfl hi
  · obtain rfl := Option.some.inj hp
    simp [acceptedStream_failed, responseRecords]

/-- R182: a run of neither `PUSHRAW` nor `RSTSTRM` hands back the records its stream completes. -/
theorem runInstrs_records_length {is : List Instr} {ps : List Response} (hs : s.HoldsStream stream)
    (hraw : ∀ c, .pushraw c ∉ is) (hreset : .rststrm ∉ is)
    (h : runInstrs is s = some (t, ps)) :
    stream.length / 24 + (ps.flatMap responseRecords).length =
      (stream ++ acceptedStream is ps).length / 24 := by
  induction is generalizing s stream ps with
  | nil =>
    obtain ⟨rfl, rfl⟩ := Prod.mk.inj (Option.some.inj h)
    simp [acceptedStream]
  | cons i is ih =>
    have hi : i ≠ .rststrm := (List.ne_of_not_mem_cons hreset).symm
    have his : .rststrm ∉ is := List.not_mem_of_not_mem_cons hreset
    obtain ⟨u, p, qs, hx, hp, hr, rfl⟩ := runInstrs_cons h
    have hhead := exec_records_length hs (fun c => (List.ne_of_not_mem_cons (hraw c)).symm) hi hx hp
    have hu := exec_holdsStream hs hi hx
    rw [hp, Option.toList_some] at hu
    have htail := ih hu (fun c => List.not_mem_of_not_mem_cons (hraw c)) his hr
    rw [List.flatMap_cons, List.length_append, ← Nat.add_assoc, hhead, htail,
      acceptedStream_cons i is p qs, List.append_assoc]

/-- Settles O34: the position is that of the stream held, and the records of the operations add up to
those of the stream. -/
theorem noByteIsLostOrUsedTwice : Obligations.NoByteIsLostOrUsedTwice := by
  intro s t is ps hcarry hresid hreset hrun
  have hs : s.HoldsStream [] := State.holdsStream_nil hcarry hresid
  refine ⟨(runInstrs_holdsStream hs hreset hrun).streamPos, fun hraw => ?_⟩
  simpa using runInstrs_records_length hs hraw hreset hrun

end Sys2Proof.Machine
end

section
/-! PROOF. Where the fields stand in the packed word (`30_encoding.md` R75, R77, `40_field_codec.md`
R102). -/

namespace Sys2Proof.Machine

/-- R105: bit `j` of an extracted field, below its width, is bit `off + j` of the word. -/
theorem extractField_getLsbD {w : Word} {off width j : Nat} (h : j < width) :
    (extractField w off width).getLsbD j = w.getLsbD (off + j) := by
  rw [← BitVec.testBit_toNat, ← BitVec.testBit_toNat, extractField_toNat, Nat.testBit_mod_two_pow,
    Nat.testBit_div_two_pow, Nat.add_comm j off]
  simp [h]

/-- R102: cells that fit fields of at most 32 bits in all sum to their register word, with nothing
cut off. -/
theorem registerWord_toNat {fs : List FieldDesc} {vs : List Word} (hfit : cellsFit fs vs = true)
    (hwidth : totalWidth fs ≤ 32) : (registerWord fs vs).toNat = sumCells 0 fs vs := by
  rw [registerWord, BitVec.toNat_ofNat, Nat.mod_eq_of_lt]
  exact (sumCells_lt (cellsFit_iff.1 hfit)).trans_le (Nat.pow_le_pow_right Nat.two_pos hwidth)

/-- R106: splitting the register word of cells that fit gives the cells back. -/
theorem splitWord_registerWord {fs : List FieldDesc} {vs : List Word}
    (hlen : vs.length = fs.length) (hfit : cellsFit fs vs = true) (hwidth : totalWidth fs ≤ 32) :
    splitWord (registerWord fs vs) 0 fs = vs :=
  splitWord_of_sum hlen (cellsFit_iff.1 hfit)
    (by rw [registerWord_toNat hfit hwidth, Nat.pow_zero, Nat.div_one])

/-- R77: the register word of cells that fit has no bit at or above the total width. -/
theorem registerWord_getLsbD_of_totalWidth_le {fs : List FieldDesc} {vs : List Word}
    (hfit : cellsFit fs vs = true) (hwidth : totalWidth fs ≤ 32) {j : Nat}
    (hj : totalWidth fs ≤ j) : (registerWord fs vs).getLsbD j = false := by
  rw [← BitVec.testBit_toNat, registerWord_toNat hfit hwidth]
  exact Nat.testBit_lt_two_pow ((sumCells_lt (cellsFit_iff.1 hfit)).trans_le
    (Nat.pow_le_pow_right Nat.two_pos hj))

/-- W2 of a register of the state. -/
theorem State.totalWidth_le {s : State} {r : Nat} {g : RegisterDesc}
    (hg : s.registers[r]? = some g) : totalWidth g.fields ≤ 32 :=
  s.config.totalWidth_le (List.mem_of_getElem? hg)

/-- In a state with the invariant a register's `SET` cells are the fields of their register word. -/
theorem State.Inv.setCell_eq_extractField {s : State} (hI : s.Inv) {r i : Nat} {g : RegisterDesc}
    {f : FieldDesc} (hg : s.registers[r]? = some g) (hf : g.fields[i]? = some f) :
    s.setCell r i =
      extractField (registerWord g.fields (s.setRow r)) (offsetOf g.fields i) f.bitWidth := by
  have hsplit : splitWord (registerWord g.fields (s.setRow r)) 0 g.fields = s.setRow r :=
    splitWord_registerWord (row_length hI.setShape hg).2 (hI.cellsFit hg) (State.totalWidth_le hg)
  have hcell := splitWord_getElem? (registerWord g.fields (s.setRow r)) 0 g.fields i
  rw [hsplit, hf] at hcell
  simp [State.setCell, hcell]

/-- R103: a register that packs to a word has fields. -/
theorem fields_ne_nil_of_packRegister_ok {s : State} {r : Nat} {g : RegisterDesc} {w : Word}
    (hg : s.registers[r]? = some g) (h : packRegister r s = .ok w) : g.fields ≠ [] := by
  intro hnil
  simp [packRegister, resolveRegister_ok_iff.2 hg, hnil] at h

/-- A `PACK` that returns a word returns the register word, in a state with the invariant. -/
theorem exec_pack_word {s t : State} (hI : s.Inv) {r : Nat} {g : RegisterDesc} {w : Word}
    (hg : s.registers[r]? = some g) (h : exec (.pack r) s = .next t)
    (hp : t.response = some (.ok (.word w))) : w = registerWord g.fields (s.setRow r) := by
  rcases exec_cases h with ⟨u, res, ho, rfl⟩ | ⟨e, -, rfl⟩
  · obtain ⟨w', hw, rfl, rfl⟩ := pack_eq_ok ho
    obtain rfl : w' = w := by simpa using hp
    have hne := fields_ne_nil_of_packRegister_ok hg hw
    exact Except.ok.inj (hw.symm.trans (packRegister_eq_ok hI hg hne))
  · cases hp

/-- Settles O9: the cells are the fields split from the packed word, and the word is below
`2^Σ bitWidth`. -/
theorem packedFieldsStandAtTheirOffsets : Obligations.PackedFieldsStandAtTheirOffsets := by
  intro s t r g w hI hg h hp
  obtain rfl := exec_pack_word hI hg h hp
  refine ⟨fun i f j hf hj => ?_, fun j hj => ?_⟩
  · rw [hI.setCell_eq_extractField hg hf, extractField_getLsbD hj]
  · exact registerWord_getLsbD_of_totalWidth_le (hI.cellsFit hg) (State.totalWidth_le hg) hj

end Sys2Proof.Machine
end

section
/-! PROOF. What the operations do not read (`10_state.md` R20, R37, `20_memory.md` R61): a change of
the state that an operation neither reads nor overwrites may be made before it or after it. -/

namespace Sys2Proof.Machine

/-- A change of the state that leaves what the codec half reads, and that commutes with its writes. -/
structure OutsideCodec (φ : State → State) : Prop where
  config : ∀ s, (φ s).config = s.config
  setCells : ∀ s, (φ s).setCells = s.setCells
  readCells : ∀ s, (φ s).readCells = s.readCells
  writeSet : ∀ s r i v, (φ s).writeSet r i v = φ (s.writeSet r i v)
  writeReadRow : ∀ s r row, (φ s).writeReadRow r row = φ (s.writeReadRow r row)

/-- A change of the state that leaves what the reassembler half reads, and that commutes with its
writes. -/
structure OutsideStream (φ : State → State) : Prop where
  config : ∀ s, (φ s).config = s.config
  carry : ∀ s, (φ s).carry = s.carry
  resid : ∀ s, (φ s).resid = s.resid
  writeDecoder : ∀ s ws bs, (φ s).writeDecoder ws bs = φ (s.writeDecoder ws bs)

/-- The operation's outcome with a change made to the state it leaves. -/
def mapState (φ : State → State) (o : Except Failure (State × Results)) :
    Except Failure (State × Results) :=
  o.map fun p => (φ p.1, p.2)

@[simp] theorem mapState_ok (φ : State → State) (s : State) (res : Results) :
    mapState φ (.ok (s, res)) = .ok (φ s, res) := rfl

@[simp] theorem mapState_error (φ : State → State) (e : Failure) :
    mapState φ (.error e) = .error e := rfl

/-- Where an operation commutes with `φ`, and answering after `φ` is `ψ` after answering, the
instruction takes `φ s` to `ψ t` when it takes `s` to `t`. -/
theorem exec_of_operation_mapState {φ ψ : State → State} {i : Instr} {s t : State}
    (hop : operation i (φ s) = mapState φ (operation i s))
    (hrespond : ∀ u p, (φ u).respond p = ψ (u.respond p)) (h : exec i s = .next t) :
    exec i (φ s) = .next (ψ t) := by
  rw [exec_eq_complete, hop]
  rcases exec_cases h with ⟨u, res, ho, rfl⟩ | ⟨e, ho, rfl⟩
  · rw [ho, mapState_ok, complete_ok, hrespond]
  · rw [ho, mapState_error, complete_error, State.fail, hrespond, State.fail]

/-! ### What the codec half reads -/

section
variable {φ : State → State} (hφ : OutsideCodec φ) (s : State)
include hφ

theorem OutsideCodec.registers_eq : (φ s).registers = s.registers := by
  rw [State.registers, hφ.config, State.registers]

theorem OutsideCodec.resolveRegister_eq (r : Nat) :
    resolveRegister (φ s) r = resolveRegister s r := by
  simp only [resolveRegister, hφ.registers_eq]

theorem OutsideCodec.resolveField_eq (r i : Nat) : resolveField (φ s) r i = resolveField s r i := by
  simp only [resolveField, hφ.resolveRegister_eq]

theorem OutsideCodec.fieldsOf_eq (r : Nat) : (φ s).fieldsOf r = s.fieldsOf r := by
  simp only [State.fieldsOf, hφ.registers_eq]

theorem OutsideCodec.setRow_eq (r : Nat) : (φ s).setRow r = s.setRow r := by
  simp only [State.setRow, hφ.setCells]

theorem OutsideCodec.readRow_eq (r : Nat) : (φ s).readRow r = s.readRow r := by
  simp only [State.readRow, hφ.readCells]

theorem OutsideCodec.setCell_eq (r i : Nat) : (φ s).setCell r i = s.setCell r i := by
  simp only [State.setCell, hφ.setRow_eq]

theorem OutsideCodec.readCell_eq (r i : Nat) : (φ s).readCell r i = s.readCell r i := by
  simp only [State.readCell, hφ.readRow_eq]

theorem OutsideCodec.readWord_eq (r : Nat) : (φ s).readWord r = s.readWord r := by
  simp only [State.readWord, hφ.fieldsOf_eq, hφ.readRow_eq]

theorem OutsideCodec.nameMap_eq (n : String) : (φ s).nameMap n = s.nameMap n := by
  simp only [State.nameMap, hφ.config]

theorem OutsideCodec.packRegister_eq (r : Nat) : packRegister r (φ s) = packRegister r s := by
  simp only [packRegister, hφ.resolveRegister_eq, hφ.setRow_eq]

theorem OutsideCodec.decodeInto_eq (r : Nat) (w : Word) :
    (φ s).decodeInto r w = φ (s.decodeInto r w) := by
  simp only [State.decodeInto, hφ.fieldsOf_eq, hφ.writeReadRow]

theorem OutsideCodec.setfield_eq (r i : Nat) (v : Word) :
    setfield r i v (φ s) = mapState φ (setfield r i v s) := by
  simp only [setfield, hφ.resolveField_eq, hφ.writeSet]
  cases resolveField s r i with
  | error e => rfl
  | ok f =>
    by_cases hmin : v < f.minValue
    · simp [hmin]
    · by_cases hmax : f.maxValue < v <;> simp [hmin, hmax]

/-- An operation of the codec half commutes with a change outside of it. -/
theorem OutsideCodec.operation_eq {i : Instr} (hi : isStreamInstr i = false) :
    operation i (φ s) = mapState φ (operation i s) := by
  cases i with
  | setfield r j v => exact hφ.setfield_eq s r j v
  | pack r =>
    simp only [operation, pack, hφ.packRegister_eq]
    cases packRegister r s <;> rfl
  | decode r w =>
    simp only [operation, decodeWord, hφ.resolveRegister_eq, hφ.decodeInto_eq]
    cases resolveRegister s r <;> rfl
  | getfield r j =>
    simp only [operation, getfield, hφ.resolveField_eq, hφ.setCell_eq, hφ.readCell_eq]
    cases resolveField s r j <;> rfl
  | lookup n =>
    simp only [operation, lookup, hφ.nameMap_eq]
    cases s.nameMap n <;> rfl
  | boardaddr | fwversion | fwdate =>
    simp [operation, boardAddress, hφ.readWord_eq, hφ.readCell_eq, hφ.config]
  | wordmsb | bytesmsb | wordlsb | mkinstr => rfl
  | push | pushraw | rststrm => cases hi

end

/-! ### What the reassembler half reads -/

section
variable {φ : State → State} (hφ : OutsideStream φ) (s : State)
include hφ

theorem OutsideStream.acceptChunk_eq (c : List Byte) :
    acceptChunk c (φ s) = ((acceptChunk c s).1, φ (acceptChunk c s).2) := by
  simp only [acceptChunk, hφ.carry, hφ.resid, hφ.writeDecoder]

/-- An operation of the reassembler half commutes with a change outside of it. -/
theorem OutsideStream.operation_eq {i : Instr} (hi : isStreamInstr i = true) :
    operation i (φ s) = mapState φ (operation i s) := by
  cases i with
  | push c =>
    simp only [operation, push, hφ.config, hφ.acceptChunk_eq]
    cases chunkRefused s.config.raw.chunkMode c <;> rfl
  | pushraw c =>
    simp only [operation, pushraw, hφ.config, hφ.acceptChunk_eq]
    cases chunkRefused s.config.raw.chunkMode c <;> rfl
  | rststrm => simp [operation, hφ.writeDecoder]
  | setfield | pack | decode | getfield | lookup | wordmsb | bytesmsb | wordlsb | mkinstr
  | boardaddr | fwversion | fwdate => cases hi

end

/-! ### The changes -/

/-- The state with other cells in its store. -/
def State.withStore (a b : List (List Word)) (s : State) : State :=
  { s with setCells := a, readCells := b }

/-- The state with another response from before. -/
def State.withResponse (p : Option Response) (s : State) : State := { s with response := p }

theorem outsideCodec_writeDecoder (ws : List Word) (bs : List Byte) :
    OutsideCodec fun s => s.writeDecoder ws bs :=
  ⟨fun _ => rfl, fun _ => rfl, fun _ => rfl, fun _ _ _ _ => rfl, fun _ _ _ => rfl⟩

theorem outsideStream_withStore (a b : List (List Word)) : OutsideStream (State.withStore a b) :=
  ⟨fun _ => rfl, fun _ => rfl, fun _ => rfl, fun _ _ _ => rfl⟩

theorem outsideCodec_withResponse (p : Option Response) : OutsideCodec (State.withResponse p) :=
  ⟨fun _ => rfl, fun _ => rfl, fun _ => rfl, fun _ _ _ _ => rfl, fun _ _ _ => rfl⟩

theorem outsideStream_withResponse (p : Option Response) : OutsideStream (State.withResponse p) :=
  ⟨fun _ => rfl, fun _ => rfl, fun _ => rfl, fun _ _ _ => rfl⟩

/-- An operation of the codec half does not read the DecoderState. -/
theorem exec_writeDecoder {i : Instr} {s t : State} (hi : isStreamInstr i = false)
    (h : exec i s = .next t) (ws : List Word) (bs : List Byte) :
    exec i (s.writeDecoder ws bs) = .next (t.writeDecoder ws bs) :=
  exec_of_operation_mapState (φ := fun s => s.writeDecoder ws bs)
    (ψ := fun s => s.writeDecoder ws bs) ((outsideCodec_writeDecoder ws bs).operation_eq s hi)
    (fun _ _ => rfl) h

/-- An operation of the reassembler half does not read the store. -/
theorem exec_withStore {i : Instr} {s t : State} (hi : isStreamInstr i = true)
    (h : exec i s = .next t) (a b : List (List Word)) :
    exec i (s.withStore a b) = .next (t.withStore a b) :=
  exec_of_operation_mapState ((outsideStream_withStore a b).operation_eq s hi) (fun _ _ => rfl) h

/-- Settles O42: the DecoderState is outside of the codec half, the store outside of the
reassembler half. -/
theorem theTwoHalvesShareNoState : Obligations.TheTwoHalvesShareNoState := by
  refine ⟨fun i s t ws bs hi h => ?_, fun i s t a b hi h => ?_⟩
  · obtain ⟨hcarry, hresid⟩ := exec_decoder_of_not_stream h hi
    exact ⟨hcarry, hresid, exec_writeDecoder hi h ws bs⟩
  · refine ⟨exec_setCells_of_ne_setfield h ?_, exec_readCells_of_ne_decode h ?_,
      exec_withStore hi h a b⟩
    · rintro r j v rfl; cases hi
    · rintro r w rfl; cases hi

/-- No operation reads the earlier response. -/
theorem operation_withResponse (i : Instr) (s : State) (p : Option Response) :
    operation i (s.withResponse p) = mapState (State.withResponse p) (operation i s) := by
  cases hi : isStreamInstr i with
  | false => exact (outsideCodec_withResponse p).operation_eq s hi
  | true => exact (outsideStream_withResponse p).operation_eq s hi

/-- Settles O43: the earlier response is outside of both halves, and the new one replaces it. -/
theorem earlierResponsesAreNotRead : Obligations.EarlierResponsesAreNotRead := by
  intro i s p
  obtain ⟨t, ht⟩ : ∃ t, exec i s = .next t := ⟨_, exec_eq_complete i s⟩
  rw [ht]
  exact exec_of_operation_mapState (ψ := id) (operation_withResponse i s p) (fun _ _ => rfl) ht

end Sys2Proof.Machine
end

section
/-! PROOF. Construction (`10_state.md` R24, R25, `41_catalog.md` R120) and the state it yields
(`10_state.md` R40 to R43). -/

namespace Sys2Proof

/-! ### The conditions, written out -/

/-- A statement about every entry of the field list is one about every field at its location. -/
theorem RawConfig.forall_mem_fieldList {c : RawConfig} {P : FieldAt → Prop} :
    (∀ e ∈ c.fieldList, P e) ↔ ∀ (r i : Nat) (g : RegisterDesc) (f : FieldDesc),
      c.registers[r]? = some g → g.fields[i]? = some f → P ⟨r, i, g, f⟩ :=
  ⟨fun h _ _ _ _ hg hf => h _ (RawConfig.mem_fieldList.2 ⟨hg, hf⟩),
    fun h e he => h e.reg e.idx e.register e.field (RawConfig.mem_fieldList.1 he).1
      (RawConfig.mem_fieldList.1 he).2⟩

/-- No location stands twice in the field list. -/
theorem RawConfig.fieldList_nodup (c : RawConfig) : c.fieldList.Nodup := by
  have hzip : ∀ {α : Type} (l : List α), l.zipIdx.Nodup := fun l =>
    List.Nodup.of_map _ (List.nodup_zipIdx_map_snd l)
  refine List.nodup_flatMap.2 ⟨fun gr _ => (hzip _).map fun a b hab => ?_, ?_⟩
  · simpa [Prod.ext_iff, and_comm] using hab
  · refine (List.pairwise_map.1 (List.nodup_zipIdx_map_snd c.registers)).imp ?_
    rintro a b hab e hea heb
    obtain ⟨x, -, rfl⟩ := List.mem_map.1 hea
    obtain ⟨y, -, hy⟩ := List.mem_map.1 heb
    exact hab (congrArg FieldAt.reg hy).symm

/-- W3: no name is taken twice exactly when a name determines the location. -/
theorem RawConfig.duplicateNames_eq_nil_iff {c : RawConfig} :
    duplicateNames c.fieldList = [] ↔
      ∀ (r i r' i' : Nat) (g g' : RegisterDesc) (f f' : FieldDesc),
        c.registers[r]? = some g → g.fields[i]? = some f →
        c.registers[r']? = some g' → g'.fields[i']? = some f' →
        f.name = f'.name → r = r' ∧ i = i' := by
  have hnodup : duplicateNames c.fieldList = [] ↔
      (c.fieldList.map fun e => e.field.name).Nodup := by
    rw [duplicateNames_eq_nil, List.Nodup, List.pairwise_map]
  rw [hnodup, List.nodup_map_iff_inj_on c.fieldList_nodup]
  constructor
  · intro h r i r' i' g g' f f' hg hf hg' hf' hname
    have he : (⟨r, i, g, f⟩ : FieldAt) = ⟨r', i', g', f'⟩ :=
      h _ (RawConfig.mem_fieldList.2 ⟨hg, hf⟩) _ (RawConfig.mem_fieldList.2 ⟨hg', hf'⟩) hname
    exact ⟨congrArg FieldAt.reg he, congrArg FieldAt.idx he⟩
  · rintro h ⟨r, i, g, f⟩ hd ⟨r', i', g', f'⟩ he hname
    obtain ⟨hg, hf⟩ := RawConfig.mem_fieldList.1 hd
    obtain ⟨hg', hf'⟩ := RawConfig.mem_fieldList.1 he
    obtain ⟨rfl, rfl⟩ := h r i r' i' g g' f f' hg hf hg' hf' hname
    obtain rfl := Option.some.inj (hg.symm.trans hg')
    obtain rfl := Option.some.inj (hf.symm.trans hf')
    rfl

/-- A field test that decides `P` has no failing field exactly when `P` holds of every field. -/
theorem RawConfig.fieldsFailing_decide_eq_nil {c : RawConfig}
    {P : RegisterDesc → FieldDesc → Prop} [∀ g f, Decidable (P g f)] :
    (c.fieldsFailing fun g f => decide (P g f)) = [] ↔
      ∀ e ∈ c.fieldList, P e.register e.field := by
  simp only [RawConfig.fieldsFailing_eq_nil, decide_eq_true_eq]

/-- A register test that decides `P` has no failing register exactly when `P` holds of every one. -/
theorem RawConfig.registersFailing_decide_eq_nil {c : RawConfig} {P : RegisterDesc → Prop}
    [∀ g, Decidable (P g)] :
    (c.registersFailing fun g => decide (P g)) = [] ↔ ∀ g ∈ c.registers, P g := by
  simp only [RawConfig.registersFailing_eq_nil, decide_eq_true_eq]

/-- W1 and W4 to W7 of one field. -/
structure FieldAt.Valid (e : FieldAt) : Prop where
  bitWidth_pos : 1 ≤ e.field.bitWidth
  bitWidth_le : e.field.bitWidth ≤ 32
  min_le_max : e.field.minValue ≤ e.field.maxValue
  max_fits : e.field.maxValue.toNat ≤ 2 ^ e.field.bitWidth - 1
  min_le_default : e.field.minValue ≤ e.field.defaultValue
  default_le_max : e.field.defaultValue ≤ e.field.maxValue
  monitor_default : e.register.family = .monitor → e.field.defaultValue = 0

theorem FieldAt.valid_iff {e : FieldAt} :
    e.Valid ↔ 1 ≤ e.field.bitWidth ∧ e.field.bitWidth ≤ 32 ∧
      e.field.minValue ≤ e.field.maxValue ∧ e.field.maxValue.toNat ≤ 2 ^ e.field.bitWidth - 1 ∧
      e.field.minValue ≤ e.field.defaultValue ∧ e.field.defaultValue ≤ e.field.maxValue ∧
      (e.register.family = .monitor → e.field.defaultValue = 0) :=
  ⟨fun ⟨hpos, hwidth, hrange, hfits, hlow, hhigh, hmonitor⟩ =>
    ⟨hpos, hwidth, hrange, hfits, hlow, hhigh, hmonitor⟩,
  fun ⟨hpos, hwidth, hrange, hfits, hlow, hhigh, hmonitor⟩ =>
    ⟨hpos, hwidth, hrange, hfits, hlow, hhigh, hmonitor⟩⟩

/-- A well-formed configuration meets W1 and W4 to W7 in every field. -/
theorem Config.field_valid (c : Config) {e : FieldAt} (he : e ∈ c.raw.fieldList) : e.Valid where
  bitWidth_pos := (c.bitWidth_bounds he).1
  bitWidth_le := (c.bitWidth_bounds he).2
  min_le_max := c.minValue_le_maxValue he
  max_fits := c.maxValue_le he
  min_le_default := (c.default_in_range he).1
  default_le_max := (c.default_in_range he).2
  monitor_default := c.monitor_default he

/-- R24: nothing breaks any condition exactly when every field, every register, the names and the
roles satisfy theirs. -/
theorem RawConfig.wellFormed_iff_conditions {c : RawConfig} :
    c.wellFormed = true ↔
      (∀ e ∈ c.fieldList, e.Valid) ∧
      (∀ g ∈ c.registers, totalWidth g.fields ≤ 32 ∧ g.address ≤ 4095) ∧
      c.culprits .w3 = [] ∧ c.culprits .w9 = [] := by
  constructor
  · intro h
    have hk := RawConfig.wellFormed_iff.1 h
    exact ⟨fun e he => Config.field_valid ⟨c, h⟩ he,
      fun g hg => ⟨Config.totalWidth_le ⟨c, h⟩ hg, Config.address_le ⟨c, h⟩ hg⟩, hk .w3, hk .w9⟩
  · rintro ⟨hfields, hregisters, hnames, hroles⟩
    refine RawConfig.wellFormed_iff.2 fun k => ?_
    cases k with
    | w3 => exact hnames
    | w9 => exact hroles
    | w2 =>
      rw [culprits, registersFailing_decide_eq_nil]
      exact fun g hg => (hregisters g hg).1
    | w8 =>
      rw [culprits, registersFailing_decide_eq_nil]
      exact fun g hg => (hregisters g hg).2
    | w1 =>
      rw [culprits, fieldsFailing_decide_eq_nil]
      exact fun e he => ⟨(hfields e he).bitWidth_pos, (hfields e he).bitWidth_le⟩
    | w4 =>
      rw [culprits, fieldsFailing_decide_eq_nil]
      exact fun e he => (hfields e he).min_le_max
    | w5 =>
      rw [culprits, fieldsFailing_decide_eq_nil]
      exact fun e he => (hfields e he).max_fits
    | w6 =>
      rw [culprits, fieldsFailing_decide_eq_nil]
      exact fun e he => ⟨(hfields e he).min_le_default, (hfields e he).default_le_max⟩
    | w7 =>
      rw [culprits, fieldsFailing_decide_eq_nil]
      exact fun e he => (hfields e he).monitor_default

/-- A defect reported names something that breaks its condition. -/
theorem RawConfig.culprit_mem_of_firstDefect {c : RawConfig} {d : Defect}
    (h : c.firstDefect = some d) : d.culprit ∈ c.culprits d.condition := by
  obtain ⟨k, -, hk⟩ := List.exists_of_findSome?_eq_some h
  obtain ⟨p, hp, rfl⟩ := Option.map_eq_some_iff.1 hk
  exact List.mem_of_head? hp

end Sys2Proof

namespace Sys2Proof.Machine

/-! ### Construction -/

/-- Construction yields the initial state of a configuration or reports its first defect (R25, R120). -/
theorem construct_ok_iff {raw : RawConfig} {s : State} :
    construct raw = .ok s ↔ ∃ c : Config, c.raw = raw ∧ s = State.ofConfig c := by
  unfold construct
  split
  next h =>
    constructor
    · rintro ⟨⟩; exact ⟨_, rfl, rfl⟩
    · rintro ⟨c, rfl, rfl⟩; rfl
  next d h =>
    constructor
    · rintro ⟨⟩
    · rintro ⟨c, rfl, rfl⟩
      have hc := c.ok
      simp [RawConfig.wellFormed, h] at hc

theorem construct_error_iff {raw : RawConfig} {d : Defect} :
    construct raw = .error d ↔ raw.firstDefect = some d := by
  unfold construct
  split <;> simp_all

/-- Construction yields a block for exactly the well-formed configurations. -/
theorem exists_construct_ok_iff {raw : RawConfig} :
    (∃ s, construct raw = .ok s) ↔ raw.wellFormed = true := by
  constructor
  · rintro ⟨s, h⟩
    obtain ⟨c, rfl, -⟩ := construct_ok_iff.1 h
    exact c.ok
  · exact fun h => ⟨_, construct_ok_iff.2 ⟨⟨raw, h⟩, rfl, rfl⟩⟩

/-- Settles O47: a block is constructed when no condition has a culprit, and the defect reported
otherwise is one of the culprits. -/
theorem constructionChecksEveryCondition : Obligations.ConstructionChecksEveryCondition := by
  refine ⟨fun raw => ?_, fun raw d h => ?_⟩
  · rw [exists_construct_ok_iff, RawConfig.wellFormed_iff_conditions,
      RawConfig.forall_mem_fieldList, RawConfig.culprits, RawConfig.duplicateNames_eq_nil_iff,
      RawConfig.culprits, RawConfig.rolesFailing_eq_nil]
    simp only [FieldAt.valid_iff]
  · exact RawConfig.culprit_mem_of_firstDefect (construct_error_iff.1 h)

/-! ### The initial state -/

/-- R41: the `SET` cell of a field is its default right after construction. -/
theorem State.ofConfig_setCell (c : Config) {r i : Nat} {g : RegisterDesc} {f : FieldDesc}
    (hg : c.raw.registers[r]? = some g) (hf : g.fields[i]? = some f) :
    (State.ofConfig c).setCell r i = f.defaultValue := by
  simp [State.setCell, State.setRow, rowOf, State.ofConfig, hg, hf]

/-- R40, R41, R43: the state right after construction holds the defaults and an empty DecoderState. -/
theorem State.ofConfig_defaults (c : Config) :
    (State.ofConfig c).carry = [] ∧ (State.ofConfig c).resid = [] ∧
      ∀ (r i : Nat) (f : FieldDesc), (State.ofConfig c).HasField r i f →
        (State.ofConfig c).setCell r i = f.defaultValue :=
  ⟨rfl, rfl, fun _ _ _ ⟨_, hg, hf⟩ => State.ofConfig_setCell c hg hf⟩

/-- Settles O48: the block constructed is the initial state of the raw configuration. -/
theorem constructionLoadsTheDefaults : Obligations.ConstructionLoadsTheDefaults := by
  intro raw s h
  obtain ⟨c, rfl, rfl⟩ := construct_ok_iff.1 h
  exact ⟨rfl, State.ofConfig_defaults c⟩

/-- Settles O49: reset is construction for the board's configuration. -/
theorem resetStateHoldsTheDefaults : Obligations.ResetStateHoldsTheDefaults :=
  State.ofConfig_defaults Config.board

/-- R29, R30, R43: the invariant holds right after construction, the ranges by W6. -/
theorem State.ofConfig_inv (c : Config) : (State.ofConfig c).Inv where
  setShape := by simp [State.ofConfig, State.registers, Function.comp_def]
  readShape := by
    refine List.ext_getElem? fun r => ?_
    simp [State.ofConfig, State.registers, Function.comp_def]
  setInRange e he := by
    obtain ⟨hg, hf⟩ := RawConfig.mem_fieldList.1 he
    rw [State.ofConfig_setCell c hg hf]
    exact c.default_in_range he
  carryBound := Nat.zero_le 5
  residBound := Nat.zero_le 3
  wordMode _ := rfl

/-- Settles O46: reset is construction for the board's configuration. -/
theorem invHoldsAtConstruction : Obligations.InvHoldsAtConstruction :=
  ⟨State.ofConfig_inv, State.ofConfig_inv Config.board⟩

end Sys2Proof.Machine
end

section
/-! PROOF. Repeating an operation (`20_memory.md` R62) and reading back what was written
(`20_memory.md` R60). -/

namespace Sys2Proof.Machine

variable {s t u : State}

/-! ### Repeating an operation -/

theorem exec_respond (i : Instr) (s : State) (p : Response) : exec i (s.respond p) = exec i s :=
  earlierResponsesAreNotRead i s (some p)

/-- An operation that succeeds again, with the same results, in the state it leaves and without
changing it, repeats; a failed one began in the state it leaves. -/
theorem exec_repeat {i : Instr}
    (hop : ∀ u res, operation i s = .ok (u, res) → operation i u = .ok (u, res))
    (h : exec i s = .next t) : exec i t = .next t := by
  rcases exec_cases h with ⟨u, res, ho, rfl⟩ | ⟨e, -, rfl⟩
  · rw [exec_respond, exec_eq_complete, hop u res ho, complete_ok]
  · rw [State.fail, exec_respond]
    exact h

/-- R62: an operation of the first class succeeds in the state it began with. -/
theorem operation_state_of_pure {i : Instr} (hi : isPureInstr i = true) {res : Results}
    (h : operation i s = .ok (u, res)) : u = s := by
  cases operation_effect h with
  | pure => rfl
  | setfield | decode | push | pushraw | rststrm => cases hi

theorem exec_respond_of_pure {i : Instr} (hi : isPureInstr i = true) (h : exec i s = .next t) :
    ∃ p, t = s.respond p := by
  rcases exec_cases h with ⟨u, res, ho, rfl⟩ | ⟨e, -, rfl⟩
  · obtain rfl := operation_state_of_pure hi ho
    exact ⟨_, rfl⟩
  · exact ⟨_, rfl⟩

theorem exec_repeat_of_pure {i : Instr} (hi : isPureInstr i = true) (h : exec i s = .next t) :
    exec i t = .next t := by
  refine exec_repeat (fun u res ho => ?_) h
  obtain rfl := operation_state_of_pure hi ho
  exact ho

theorem State.writeSet_writeSet (s : State) (r i : Nat) (v : Word) :
    (s.writeSet r i v).writeSet r i v = s.writeSet r i v := by
  by_cases hr : r < s.setCells.length
  · simp [State.writeSet, State.setRow, rowOf_set_self hr]
  · simp [State.writeSet, List.set_eq_of_length_le (Nat.le_of_not_lt hr)]

theorem State.decodeInto_decodeInto (s : State) (r : Nat) (w : Word) :
    (s.decodeInto r w).decodeInto r w = s.decodeInto r w := by
  simp only [State.decodeInto, State.writeReadRow_fieldsOf]
  simp [State.writeReadRow]

/-- R100: `SETFIELD` of a value in its field's range succeeds. -/
theorem setfield_eq_ok {r i : Nat} {v : Word} {g : RegisterDesc} {f : FieldDesc}
    (hg : s.registers[r]? = some g) (hf : g.fields[i]? = some f) (hmin : f.minValue ≤ v)
    (hmax : v ≤ f.maxValue) : setfield r i v s = .ok (s.writeSet r i v, .nothing) := by
  rw [setfield, resolveField_ok_iff.2 ⟨g, hg, hf⟩]
  simp [BitVec.not_lt.2 hmin, BitVec.not_lt.2 hmax]

/-- R104: `DECODE` of an existing register succeeds. -/
theorem decodeWord_eq_ok {r : Nat} {g : RegisterDesc} (hg : s.registers[r]? = some g) (w : Word) :
    decodeWord r w s = .ok (s.decodeInto r w, .nothing) := by
  rw [decodeWord, resolveRegister_ok_iff.2 hg]

theorem exec_setfield_repeat {r i : Nat} {v : Word} (h : exec (.setfield r i v) s = .next t) :
    exec (.setfield r i v) t = .next t := by
  refine exec_repeat (fun u res ho => ?_) h
  cases operation_effect ho with
  | setfield hg hf hmin hmax =>
    have hg' : (s.writeSet r i v).registers[r]? = some _ := hg
    rw [operation, setfield_eq_ok hg' hf hmin hmax, State.writeSet_writeSet]
  | pure hpure => cases hpure

theorem exec_decode_repeat {r : Nat} {w : Word} (h : exec (.decode r w) s = .next t) :
    exec (.decode r w) t = .next t := by
  refine exec_repeat (fun u res ho => ?_) h
  cases operation_effect ho with
  | decode hg =>
    have hg' : (s.decodeInto r w).registers[r]? = some _ := hg
    rw [operation, decodeWord_eq_ok hg', State.decodeInto_decodeInto]
  | pure hpure => cases hpure

theorem exec_rststrm_repeat (h : exec .rststrm s = .next t) : exec .rststrm t = .next t := by
  refine exec_repeat (fun u res ho => ?_) h
  obtain ⟨rfl, rfl⟩ := Prod.mk.inj (Except.ok.inj ho)
  rfl

/-- The block of the test vectors' catalog right after construction: in `BYTE` mode, its residue
empty. -/
def vectorBlock : State := State.ofConfig ⟨vectorConfig, by decide⟩

/-- Settles O41: pure operations and idempotent writers succeed again in the state they leave; a one
byte chunk is taken in twice, so the second time the residue grows from one byte to two. -/
theorem pureIdempotentAndConsumingOperations :
    Obligations.PureIdempotentAndConsumingOperations := by
  refine ⟨fun i s t hi h => ⟨exec_respond_of_pure hi h, exec_repeat_of_pure hi h⟩,
    fun i s t _ hi h => ?_, ?_, ?_⟩
  · rcases hi with ⟨r, j, v, rfl⟩ | ⟨r, w, rfl⟩ | rfl
    · exact exec_setfield_repeat h
    · exact exec_decode_repeat h
    · exact exec_rststrm_repeat h
  · exact ⟨[0xD3], vectorBlock, _, _, State.ofConfig_inv _, exec_eq_complete _ _,
      exec_eq_complete _ _, by decide⟩
  · exact ⟨[0xD3], vectorBlock, _, _, State.ofConfig_inv _, exec_eq_complete _ _,
      exec_eq_complete _ _, by decide⟩

/-! ### Reading back -/

/-- A `SETFIELD` that answers `OK` named a field and wrote its cell. -/
theorem exec_setfield_ok {r i : Nat} {v : Word} {res : Results}
    (h : exec (.setfield r i v) s = .next t) (hok : t.response = some (.ok res)) :
    ∃ f, s.HasField r i f ∧ t = (s.writeSet r i v).respond (.ok .nothing) := by
  rcases exec_effect h with ⟨u, res, he, rfl⟩ | ⟨e, rfl⟩
  · cases he with
    | setfield hg hf => exact ⟨_, ⟨_, hg, hf⟩, rfl⟩
    | pure hpure => cases hpure
  · cases hok

theorem State.Inv.writeSet_setCell_self (hI : s.Inv) {r i : Nat} {f : FieldDesc}
    (hf : s.HasField r i f) (v : Word) : (s.writeSet r i v).setCell r i = v := by
  obtain ⟨g, hg, hgf⟩ := hf
  obtain ⟨hr, hlen⟩ := row_length hI.setShape hg
  have hi : i < (s.setRow r).length := hlen ▸ (List.getElem?_eq_some_iff.1 hgf).1
  exact State.writeSet_setCell_self hr hi

/-- R60: only a `SETFIELD` of that field changes a `SET` cell. -/
theorem exec_setCell_of_ne {k : Instr} {r i : Nat} (hk : ∀ v, k ≠ .setfield r i v)
    (h : exec k s = .next t) : t.setCell r i = s.setCell r i := by
  rcases exec_effect h with ⟨u, res, he, rfl⟩ | ⟨e, rfl⟩
  · cases he with
    | @setfield r' i' v =>
      have hloc : (r, i) ≠ (r', i') := fun hloc => by
        cases hloc
        exact hk v rfl
      exact State.writeSet_setCell_ne hloc
    | pure | decode | push | pushraw | rststrm => rfl
  · rfl

/-- What each operation of a run keeps, the run keeps. -/
theorem runInstrs_keeps {P : State → Prop} {is : List Instr} {ps : List Response}
    (hP : ∀ i ∈ is, ∀ s t, exec i s = .next t → P s → P t) (h : runInstrs is s = some (t, ps))
    (hs : P s) : P t := by
  induction is generalizing s ps with
  | nil =>
    obtain ⟨rfl, rfl⟩ := Prod.mk.inj (Option.some.inj h)
    exact hs
  | cons i is ih =>
    obtain ⟨hi, his⟩ := List.forall_mem_cons.1 hP
    obtain ⟨u, p, qs, hx, -, hr, -⟩ := runInstrs_cons h
    exact ih his hr (hi s u hx hs)

theorem runInstrs_config {is : List Instr} {ps : List Response}
    (h : runInstrs is s = some (t, ps)) : t.config = s.config :=
  runInstrs_keeps (P := fun u => u.config = s.config)
    (fun _ _ _ _ hx hs => (exec_config_program hx).1.trans hs) h rfl

theorem runInstrs_setCell {is : List Instr} {ps : List Response} {r i : Nat}
    (his : ∀ v, .setfield r i v ∉ is) (h : runInstrs is s = some (t, ps)) :
    t.setCell r i = s.setCell r i :=
  runInstrs_keeps (P := fun u => u.setCell r i = s.setCell r i)
    (fun _ hk _ _ hx hs => (exec_setCell_of_ne (fun v hv => his v (hv ▸ hk)) hx).trans hs) h rfl

/-- A field is of the configuration. -/
theorem State.HasField.of_config_eq {r i : Nat} {f : FieldDesc} (hf : s.HasField r i f)
    (h : t.config = s.config) : t.HasField r i f := by
  rw [State.HasField, State.registers, h]
  exact hf

/-- R108: `GETFIELD` of an existing field hands back its two cells. -/
theorem exec_getfield {r i : Nat} {f : FieldDesc} (hf : s.HasField r i f) :
    exec (.getfield r i) s =
      .next (s.respond (.ok (.cells (s.setCell r i) (s.readCell r i)))) := by
  rw [exec_eq_complete, operation, getfield, resolveField_ok_iff.2 hf, complete_ok]

/-- Settles O44: the `SETFIELD` puts `v` into the cell, the run leaves the cell and the
configuration, and `GETFIELD` hands the cell back. -/
theorem getfieldSeesTheLatestSetfield : Obligations.GetfieldSeesTheLatestSetfield := by
  intro s t u r i v between ps hI hset hok hbetween hrun
  obtain ⟨f, hf, rfl⟩ := exec_setfield_ok hset hok
  have hcell : u.setCell r i = v :=
    (runInstrs_setCell hbetween hrun).trans (hI.writeSet_setCell_self hf v)
  have hconfig : u.config = s.config := (runInstrs_config hrun).trans rfl
  exact ⟨u.readCell r i, hcell ▸ exec_getfield (hf.of_config_eq hconfig)⟩

end Sys2Proof.Machine
end

section
/-! PROOF. The request decoder against the encoder and the reserved selectors (`30_encoding.md` R70 to
R74). -/

namespace Sys2Proof

/-! ### The selector table and the operand lists -/

theorem selectorRow_eq_some {sel : BitVec 8} {row : SelectorRow} (h : selectorRow sel = some row) :
    row ∈ selectorTable ∧ row.selector = sel :=
  ⟨List.mem_of_find?_eq_some h, by simpa using List.find?_some h⟩

theorem selectorTable_mnemonic_unique :
    ∀ a ∈ selectorTable, ∀ b ∈ selectorTable, a.mnemonic = b.mnemonic → a = b := by decide

/-- R72: two selectors of one mnemonic are one selector. -/
theorem selector_unique_of_mnemonic {sel sel' : BitVec 8} {row row' : SelectorRow}
    (h : selectorRow sel = some row) (h' : selectorRow sel' = some row')
    (hm : row.mnemonic = row'.mnemonic) : sel = sel' := by
  obtain ⟨hmem, rfl⟩ := selectorRow_eq_some h
  obtain ⟨hmem', rfl⟩ := selectorRow_eq_some h'
  rw [selectorTable_mnemonic_unique row hmem row' hmem' hm]

/-- An assembled instruction's request has the operands it was assembled from, under a selector of the
mnemonic. -/
theorem encode_of_assembleInstr {m : Mnemonic} {ops : List Operand} {i : Instr} :
    assembleInstr m ops = some i →
      (selectorRow (encode i).selector).map (·.mnemonic) = some m ∧ (encode i).operands = ops := by
  fun_cases assembleInstr m ops
  all_goals rintro ⟨⟩
  all_goals exact ⟨rfl, rfl⟩

/-- R74: the selectors with no row in the table are those of the reserved ranges. -/
theorem selectorRow_eq_none_iff_reserved {sel : BitVec 8} :
    selectorRow sel = none ↔ Machine.Reserved sel := by
  simp only [selectorRow, List.find?_eq_none, selectorTable, List.forall_mem_cons, beq_iff_eq,
    List.not_mem_nil, false_implies, implies_true, and_true, Machine.Reserved]
  bv_omega

/-! ### The decoder -/

theorem decode_eq_ok_iff {q : Request} {i : Instr} :
    decode q = .ok i ↔ ∃ row, selectorRow q.selector = some row ∧
      assembleInstr row.mnemonic q.operands = some i := by
  rw [decode]
  cases selectorRow q.selector with
  | none => simp
  | some row => cases h : assembleInstr row.mnemonic q.operands <;> simp [h]

theorem decode_eq_reservedSelector_iff {q : Request} :
    decode q = .error .reservedSelector ↔ selectorRow q.selector = none := by
  rw [decode]
  cases selectorRow q.selector with
  | none => simp
  | some row => cases h : assembleInstr row.mnemonic q.operands <;> simp [h]

theorem decode_encode (i : Instr) : decode (encode i) = .ok i := by
  cases i <;> rfl

theorem eq_encode_of_decode {q : Request} {i : Instr} (h : decode q = .ok i) : q = encode i := by
  obtain ⟨row, hrow, hi⟩ := decode_eq_ok_iff.1 h
  obtain ⟨hm, hops⟩ := encode_of_assembleInstr hi
  obtain ⟨row', hrow', hm'⟩ := Option.map_eq_some_iff.1 hm
  have hsel : q.selector = (encode i).selector :=
    selector_unique_of_mnemonic hrow hrow' hm'.symm
  exact congrArg₂ Request.mk hsel hops.symm

/-- Settles O1: an encoding decodes to its instruction, and a decoded request has the operands and, its
mnemonic having one selector, the selector of the instruction's request. -/
theorem decodesExactlyTheEncodings : Obligations.DecodesExactlyTheEncodings :=
  fun _ i => ⟨eq_encode_of_decode, fun hq => hq ▸ decode_encode i⟩

/-- Settles O5: each request is the encoding of its instruction. -/
theorem specRequestsDecode : Obligations.SpecRequestsDecode :=
  ⟨decode_encode (.setfield 0 1 7), decode_encode (.lookup "g_sel"),
    decode_encode (.wordlsb ⟨0x01, 0x02, 0x03, 0x04⟩), decode_encode (.mkinstr 0x106 1 0),
    decode_encode (.push [0xD3])⟩

end Sys2Proof

namespace Sys2Proof.Machine

/-! ### The step on what is no instruction -/

/-- R221: with no request the block is idle. -/
theorem step_of_program_nil {s : State} (hp : s.program = []) : step s = .next s := by
  simp only [step, fetch, hp, idle]

theorem step_of_decode_error {s : State} {q : Request} {rest : List Request} {e : DecodeError}
    (hp : s.program = q :: rest) (hd : decode q = .error e) :
    step s = rejectRequest e { s with program := rest } := by
  simp only [step, fetch_of_program_cons hp, hd]

/-- Settles O2: the reserved selectors are those with no row, and the decoder's rejection by the
selector is answered with `ILLEGAL_OP`. -/
theorem reservedSelectorIsIllegalOp : Obligations.ReservedSelectorIsIllegalOp := by
  have hreserved : ∀ q : Request, decode q = .error .reservedSelector ↔ Reserved q.selector :=
    fun _ => decode_eq_reservedSelector_iff.trans selectorRow_eq_none_iff_reserved
  exact ⟨hreserved, fun _ q _ hp hsel => step_of_decode_error hp ((hreserved q).2 hsel)⟩

/-- Settles O4: without a request the step idles, and an operand list that does not fit is refused by
name. -/
theorem stepWithoutAnInstruction : Obligations.StepWithoutAnInstruction :=
  ⟨fun _ => step_of_program_nil, fun _ _ _ _ hp hd => step_of_decode_error hp hd⟩

/-- Settles O35: every operation completes in a next state, and that state holds its response. -/
theorem everyOperationAnswers : Obligations.EveryOperationAnswers := by
  intro i s
  obtain ⟨t, ht⟩ : ∃ t, exec i s = .next t := ⟨_, exec_eq_complete i s⟩
  obtain ⟨p, hp⟩ := exec_response ht
  exact ⟨t, p, ht, hp⟩

end Sys2Proof.Machine
end

section
/-! PROOF. The operations of the field codec (`40_field_codec.md` R100 to R110) and the accessors
that read a decoded register (`43_command_words.md` R143 to R145). -/

namespace Sys2Proof.Machine

variable {s t : State} {r i : Nat} {v w : Word} {g : RegisterDesc} {f : FieldDesc}

/-! ### `SETFIELD` and `GETFIELD` -/

/-- R100: `SETFIELD` of no field, or of a value out of its field's range, fails. -/
theorem setfield_eq_rangeErr (h : ¬∃ f, s.HasField r i f ∧ f.minValue ≤ v ∧ v ≤ f.maxValue) :
    setfield r i v s = .error .rangeErr := by
  cases hf : resolveField s r i with
  | error e => rw [setfield, hf, (resolveField_error_iff.1 hf).2]
  | ok f =>
    have hrange : f.minValue ≤ v → f.maxValue < v := fun hmin =>
      BitVec.not_le.1 fun hmax => h ⟨f, resolveField_ok_iff.1 hf, hmin, hmax⟩
    by_cases hmin : v < f.minValue
    · simp [setfield, hf, hmin]
    · simp [setfield, hf, hrange (BitVec.not_lt.1 hmin)]

/-- Settles O6: the write goes to the one cell of the store; a rejected value reaches no write. -/
theorem setfieldWritesOneCellWithinRange : Obligations.SetfieldWritesOneCellWithinRange := by
  refine ⟨fun s r i v f hI hfield hmin hmax => ?_, fun s r i v h => ?_⟩
  · obtain ⟨g, hg, hf⟩ := hfield
    refine ⟨(s.writeSet r i v).respond (.ok .nothing), ?_, rfl,
      hI.writeSet_setCell_self ⟨g, hg, hf⟩ v, fun k j hloc => State.writeSet_setCell_ne hloc,
      lengths_set (by simp [State.setRow]), rfl, rfl, rfl, rfl, rfl⟩
    rw [exec_eq_complete, operation, setfield_eq_ok hg hf hmin hmax, complete_ok]
  · rw [exec_eq_complete, operation, setfield_eq_rangeErr h, complete_error, State.fail]

/-- R195: an operation that answers a failure changes nothing but the response. -/
theorem exec_failed {k : Instr} {e : Failure} (h : exec k s = .next t)
    (he : t.response = some (.failed e)) : t = s.fail e := by
  rcases exec_cases h with ⟨u, res, -, rfl⟩ | ⟨e', -, rfl⟩
  · cases he
  · obtain rfl : e' = e := by simpa using he
    rfl

/-- Settles O7: the rejected `SETFIELD` leaves the state but for the response, which `PACK` does not
read. -/
theorem rangeRejectionLeavesThePackedWord : Obligations.RangeRejectionLeavesThePackedWord := by
  intro s t r i v h he
  obtain rfl := exec_failed h he
  exact ⟨_, _, exec_eq_complete (.pack r) s,
    (exec_respond _ s _).trans (exec_eq_complete (.pack r) s), rfl⟩

/-- Settles O13: a location resolves to its field, whose cells are handed back, or fails. -/
theorem getfieldReturnsBothCells : Obligations.GetfieldReturnsBothCells := by
  refine ⟨fun s r i f hf => exec_getfield hf, fun s r i h => ?_⟩
  cases hf : resolveField s r i with
  | ok f => exact absurd ⟨f, resolveField_ok_iff.1 hf⟩ h
  | error e =>
    obtain rfl := (resolveField_error_iff.1 hf).2
    rw [exec_eq_complete, operation, getfield, hf, complete_error, State.fail]

/-! ### The register word as a sum and as an OR -/

@[simp] theorem offsetOf_zero (fs : List FieldDesc) : offsetOf fs 0 = 0 := by
  simp [offsetOf, totalWidth]

/-- R102, R110: the sum over a row of cells, with every field named by its index. -/
theorem sumCells_eq_sum (off : Nat) {fs : List FieldDesc} {vs : List Word}
    (hlen : vs.length = fs.length) :
    sumCells off fs vs = ((List.range fs.length).map fun i =>
      ((vs[i]?).getD 0).toNat <<< (off + offsetOf fs i)).sum := by
  induction fs generalizing off vs with
  | nil => simp [sumCells]
  | cons f fs ih =>
    cases vs with
    | nil => cases hlen
    | cons v vs =>
      rw [sumCells, ih _ (Nat.succ.inj hlen), List.length_cons, List.range_succ_eq_map]
      simp [offsetOf_succ, Nat.add_assoc, Function.comp_def]

/-- R102: cells that fit their fields stand in disjoint bits, so their sum is their OR. -/
theorem sumCells_eq_or (off : Nat) {fs : List FieldDesc} {vs : List Word}
    (hlen : vs.length = fs.length) (hfit : cellsFit fs vs = true) :
    sumCells off fs vs = (List.range fs.length).foldr
      (fun i acc => ((vs[i]?).getD 0).toNat <<< (off + offsetOf fs i) ||| acc) 0 := by
  induction fs generalizing off vs with
  | nil => simp [sumCells]
  | cons f fs ih =>
    cases vs with
    | nil => cases hlen
    | cons v vs =>
      have hv : v.toNat < 2 ^ f.bitWidth := cellsFit_iff.1 hfit 0 f v rfl rfl
      have hvs : cellsFit fs vs = true := by simpa [cellsFit, hv] using hfit
      have hlow : v.toNat <<< off < 2 ^ (off + f.bitWidth) := by
        rw [Nat.shiftLeft_eq, Nat.add_comm, Nat.pow_add]
        exact Nat.mul_lt_mul_of_pos_right hv (Nat.two_pow_pos off)
      have hor : sumCells off (f :: fs) (v :: vs) =
          v.toNat <<< off ||| sumCells (off + f.bitWidth) fs vs := by
        rw [sumCells, sumCells_eq_mul (off + f.bitWidth), Nat.add_comm,
          Nat.two_pow_add_eq_or_of_lt hlow, Nat.or_comm]
      rw [hor, ih _ (Nat.succ.inj hlen) hvs, List.length_cons, List.range_succ_eq_map]
      simp [offsetOf_succ, Nat.add_assoc, List.foldr_map]

/-! ### `PACK` -/

theorem exec_pack (hI : s.Inv) (hg : s.registers[r]? = some g) (hne : g.fields ≠ []) :
    exec (.pack r) s = .next (s.respond (.ok (.word (registerWord g.fields (s.setRow r))))) := by
  rw [exec_eq_complete, operation, pack, packRegister_eq_ok hI hg hne, complete_ok]

theorem exec_pack_of_error {e : Failure} (h : packRegister r s = .error e) :
    exec (.pack r) s = .next (s.respond (.failed e)) := by
  rw [exec_eq_complete, operation, pack, h, complete_error, State.fail]

/-- Settles O8: the invariant makes the `SET` cells fit their fields, so that their register word is
the sum with nothing cut off and no carry between fields. -/
theorem packReturnsTheSumOfShiftedCells : Obligations.PackReturnsTheSumOfShiftedCells := by
  refine ⟨fun s r g hI hg hne => ?_, fun s r hg => ?_, fun s r g hg hnil => ?_⟩
  · have hlen : (s.setRow r).length = g.fields.length := (row_length hI.setShape hg).2
    have hfit := hI.cellsFit hg
    have hsum := registerWord_toNat hfit (State.totalWidth_le hg)
    refine ⟨_, exec_pack hI hg hne, hsum.trans ?_, hsum.trans ?_⟩
    · simpa [State.setCell] using sumCells_eq_sum 0 hlen
    · simpa [State.setCell] using sumCells_eq_or 0 hlen hfit
  · exact exec_pack_of_error (by rw [packRegister, resolveRegister_error_iff.2 ⟨hg, rfl⟩])
  · exact exec_pack_of_error (by simp [packRegister, resolveRegister_ok_iff.2 hg, hnil])

/-! ### `DECODE` -/

theorem exec_decode (hg : s.registers[r]? = some g) (w : Word) :
    exec (.decode r w) s = .next ((s.decodeInto r w).respond (.ok .nothing)) := by
  rw [exec_eq_complete, operation, decodeWord_eq_ok hg, complete_ok]

theorem eq_of_exec_decode (hg : s.registers[r]? = some g) (h : exec (.decode r w) s = .next t) :
    t = (s.decodeInto r w).respond (.ok .nothing) :=
  Host.Outcome.next.inj (h.symm.trans (exec_decode hg w))

/-- R104: the `READ` cells of a decoded register are the fields of the word. -/
theorem State.Inv.decodeInto_readRow (hI : s.Inv) (hg : s.registers[r]? = some g) (w : Word) :
    (s.decodeInto r w).readRow r = splitWord w 0 g.fields := by
  rw [State.decodeInto, State.readRow, State.writeReadRow_readCells,
    rowOf_set_self (row_length hI.readShape hg).1, State.fieldsOf_eq hg]

/-- R104: the `READ` cell of one field of a decoded register. -/
theorem State.Inv.decodeInto_readCell (hI : s.Inv) (hg : s.registers[r]? = some g)
    (hf : g.fields[i]? = some f) (w : Word) :
    (s.decodeInto r w).readCell r i = extractField w (offsetOf g.fields i) f.bitWidth := by
  simp [State.readCell, hI.decodeInto_readRow hg, splitWord_getElem?, hf]

/-- R104: `DECODE` leaves the `READ` cells of the other registers. -/
theorem State.decodeInto_readCell_ne {k : Nat} (h : k ≠ r) (j : Nat) :
    (s.decodeInto r w).readCell k j = s.readCell k j := by
  simp only [State.readCell, State.readRow, State.decodeInto, State.writeReadRow_readCells,
    rowOf_set_ne h]

/-- Settles O10: the row written is the word split into the register's fields. -/
theorem decodeWritesEveryReadCell : Obligations.DecodeWritesEveryReadCell := by
  refine ⟨fun s r w g hI hg => ?_, fun s r w hg => ?_⟩
  · refine ⟨_, exec_decode hg w, rfl, fun i f hf => ?_,
      fun k j hk => State.decodeInto_readCell_ne hk j, ?_, rfl, rfl, rfl, rfl, rfl⟩
    · rw [State.respond_readCell, hI.decodeInto_readCell hg hf, extractField_toNat]
    · exact (hI.decodeInto hg w).readShape.trans hI.readShape.symm
  · rw [exec_eq_complete, operation, decodeWord, resolveRegister_error_iff.2 ⟨hg, rfl⟩,
      complete_error, State.fail]

/-! ### The read word -/

/-- R105: the values split from a word make up its low `Σ bitWidth` bits again. -/
theorem registerWord_splitWord (w : Word) (fs : List FieldDesc) :
    (registerWord fs (splitWord w 0 fs)).toNat = w.toNat % 2 ^ totalWidth fs := by
  rw [registerWord, BitVec.toNat_ofNat, sumCells_splitWord, Nat.pow_zero, Nat.div_one]
  exact Nat.mod_eq_of_lt ((Nat.mod_le _ _).trans_lt w.isLt)

/-- R105, R110: the read word of a decoded register. -/
theorem exec_decode_readWord_toNat (hI : s.Inv) (hg : s.registers[r]? = some g)
    (h : exec (.decode r w) s = .next t) :
    (t.readWord r).toNat = w.toNat % 2 ^ totalWidth g.fields := by
  obtain rfl := eq_of_exec_decode hg h
  have hfields : (s.decodeInto r w).fieldsOf r = g.fields := State.fieldsOf_eq hg
  rw [State.readWord, State.respond_fieldsOf, State.respond_readRow, hfields,
    hI.decodeInto_readRow hg, registerWord_splitWord]

/-- R110: fields that cover all 32 bits read back the received word. -/
theorem exec_decode_readWord (hI : s.Inv) (hg : s.registers[r]? = some g)
    (h : exec (.decode r w) s = .next t) (hfull : totalWidth g.fields = 32) :
    t.readWord r = w := by
  apply BitVec.eq_of_toNat_eq
  rw [exec_decode_readWord_toNat hI hg h, hfull, Nat.mod_eq_of_lt w.isLt]

/-- Settles O11: the read word is the register word of the `READ` cells, which a `DECODE` makes the
fields of its word. -/
theorem readWordAfterDecode : Obligations.ReadWordAfterDecode := by
  refine ⟨fun s r g hI hg => ?_, fun s t r w g hI hg h =>
    ⟨exec_decode_readWord_toNat hI hg h, exec_decode_readWord hI hg h⟩⟩
  have hlen : (s.readRow r).length = g.fields.length := (row_length hI.readShape hg).2
  rw [State.readWord, State.fieldsOf_eq hg, registerWord, BitVec.toNat_ofNat,
    sumCells_eq_sum 0 hlen]
  simp [State.readCell]

/-- R106: decoding its packed word puts a register's `SET` cells into its `READ` cells. -/
theorem State.Inv.decodeInto_registerWord_readRow (hI : s.Inv) (hg : s.registers[r]? = some g) :
    (s.decodeInto r (registerWord g.fields (s.setRow r))).readRow r = s.setRow r := by
  rw [hI.decodeInto_readRow hg]
  exact splitWord_registerWord (row_length hI.setShape hg).2 (hI.cellsFit hg)
    (State.totalWidth_le hg)

/-- Settles O12: `DECODE` takes the packed word apart into the `SET` cells it was packed from, and
conversely the read word is the decoded word's low bits. -/
theorem decodeOfPackReproducesTheFields : Obligations.DecodeOfPackReproducesTheFields := by
  refine ⟨fun s r g hI hg hne => ?_, fun s t r w g hI hg h j hj => ?_⟩
  · refine ⟨_, _, _, exec_pack hI hg hne, rfl, (exec_respond _ s _).trans (exec_decode hg _), rfl,
      fun i _ => ⟨?_, rfl⟩⟩
    rw [State.respond_readCell, State.readCell, hI.decodeInto_registerWord_readRow hg]
    rfl
  · rw [← BitVec.testBit_toNat, exec_decode_readWord_toNat hI hg h, Nat.testBit_mod_two_pow,
      BitVec.testBit_toNat]
    simp [hj]

/-! ### The accessors -/

/-- R143: the complement of a word's low 4 bits. -/
theorem boardAddress_toNat (s : State) :
    (boardAddress s).toNat = 15 - (s.readWord s.config.raw.idReg).toNat % 16 := by
  have hlt := (s.readWord s.config.raw.idReg).isLt
  simp only [boardAddress, BitVec.toNat_setWidth, BitVec.toNat_not]
  omega

/-- Settles O23: the accessors return what they compute from the `READ` cells, which the `DECODE` of
their register made the fields of its word. -/
theorem accessorsAfterDecode : Obligations.AccessorsAfterDecode := by
  intro s t w hI
  obtain ⟨hid, -, ⟨g, hg, hdate⟩, -⟩ := s.config.roles_valid
  refine ⟨fun h hwidth => ⟨boardAddress t, exec_eq_complete _ _, ?_⟩, fun h => ?_⟩
  · have hg : s.registers[s.config.raw.idReg]? = some _ := List.getElem?_eq_getElem hid
    have hdvd : 16 ∣ 2 ^ totalWidth (s.fieldsOf s.config.raw.idReg) := pow_dvd_pow 2 hwidth
    rw [boardAddress_toNat, (exec_config_program h).1, exec_decode_readWord_toNat hI hg h,
      ← State.fieldsOf_eq hg, Nat.mod_mod_of_dvd _ hdvd]
  · have hg : s.registers[s.config.raw.fwReg]? = some g := hg
    obtain ⟨f, hf⟩ : ∃ f, g.fields[s.config.raw.fwDateIdx]? = some f :=
      ⟨_, List.getElem?_eq_getElem hdate⟩
    refine ⟨fun hfull => ?_, f, _, ⟨g, hg, hf⟩, exec_eq_complete _ _, ?_⟩
    · rw [State.fieldsOf_eq hg] at hfull
      rw [exec_eq_complete, operation, (exec_config_program h).1,
        exec_decode_readWord hI hg h hfull, complete_ok]
    · obtain rfl := eq_of_exec_decode hg h
      exact (congrArg BitVec.toNat (hI.decodeInto_readCell hg hf w)).trans
        ((extractField_toNat _ _ _).trans (by rw [State.fieldsOf_eq hg]))

end Sys2Proof.Machine
end

section
/-! PROOF. The register family (`40_field_codec.md` R107): what the operations read of a
configuration is the same in one that differs only in the families. -/

namespace Sys2Proof.Machine

/-- The state with another configuration. -/
def State.withConfig (c : Config) (s : State) : State := { s with config := c }

/-- Another configuration with the parameters of the state's and registers of the same fields. -/
structure SameFields (c : Config) (s : State) : Prop where
  raw : c.raw = { s.config.raw with registers := c.raw.registers }
  fields : c.raw.registers.map (·.fields) = s.registers.map (·.fields)

/-- The name map is a function of the registers' field lists. -/
theorem State.nameMap_eq_of_fields (s : State) (n : String) :
    s.nameMap n = (((s.registers.map (·.fields)).zipIdx.flatMap fun gr =>
      gr.1.zipIdx.map fun fi => (gr.2, fi.2, fi.1)).find?
        fun e => e.2.2.name == n).map fun e => (e.1, e.2.1) := by
  have hkey : ((s.registers.map (·.fields)).zipIdx.flatMap fun gr =>
      gr.1.zipIdx.map fun fi => (gr.2, fi.2, fi.1)) =
        s.config.raw.fieldList.map fun e => (e.reg, e.idx, e.field) := by
    simp [RawConfig.fieldList, State.registers, List.zipIdx_map, List.flatMap_map,
      List.map_flatMap, Function.comp_def]
  rw [hkey, List.find?_map, Option.map_map]
  rfl

section
variable {c : Config} {s : State} (hc : SameFields c s)
include hc

/-- A register is in both configurations, with the same fields, or in neither. -/
theorem SameFields.register_cases (r : Nat) :
    (s.registers[r]? = none ∧ (s.withConfig c).registers[r]? = none) ∨
      ∃ g g', s.registers[r]? = some g ∧ (s.withConfig c).registers[r]? = some g' ∧
        g'.fields = g.fields := by
  have h : ((s.withConfig c).registers[r]?).map (·.fields) = (s.registers[r]?).map (·.fields) := by
    rw [← List.getElem?_map, ← List.getElem?_map, ← hc.fields]
    rfl
  cases hg : s.registers[r]? with
  | none => exact .inl ⟨rfl, by simpa [hg] using h⟩
  | some g =>
    obtain ⟨g', hg', hfields⟩ : ∃ g', (s.withConfig c).registers[r]? = some g' ∧
        g'.fields = g.fields := by simpa [hg] using h
    exact .inr ⟨g, g', rfl, hg', hfields⟩

theorem SameFields.resolveField_eq (r i : Nat) :
    resolveField (s.withConfig c) r i = resolveField s r i := by
  rcases hc.register_cases r with ⟨hg, hg'⟩ | ⟨g, g', hg, hg', hfields⟩
  · simp [resolveField, resolveRegister, hg, hg']
  · simp [resolveField, resolveRegister, hg, hg', hfields]

theorem SameFields.fieldsOf_eq (r : Nat) : (s.withConfig c).fieldsOf r = s.fieldsOf r := by
  rcases hc.register_cases r with ⟨hg, hg'⟩ | ⟨g, g', hg, hg', hfields⟩
  · simp [State.fieldsOf, hg, hg']
  · simp [State.fieldsOf, hg, hg', hfields]

theorem SameFields.packRegister_eq (r : Nat) :
    packRegister r (s.withConfig c) = packRegister r s := by
  have hrow : (s.withConfig c).setRow r = s.setRow r := rfl
  rcases hc.register_cases r with ⟨hg, hg'⟩ | ⟨g, g', hg, hg', hfields⟩
  · simp [packRegister, resolveRegister, hg, hg']
  · simp [packRegister, resolveRegister, hg, hg', hfields, hrow]

theorem SameFields.decodeInto_eq (r : Nat) (w : Word) :
    (s.withConfig c).decodeInto r w = (s.decodeInto r w).withConfig c := by
  rw [State.decodeInto, hc.fieldsOf_eq]
  rfl

theorem SameFields.decodeWord_eq (r : Nat) (w : Word) :
    decodeWord r w (s.withConfig c) = mapState (State.withConfig c) (decodeWord r w s) := by
  rcases hc.register_cases r with ⟨hg, hg'⟩ | ⟨g, g', hg, hg', -⟩
  · simp [decodeWord, resolveRegister, hg, hg']
  · rw [decodeWord_eq_ok hg, decodeWord_eq_ok hg', hc.decodeInto_eq, mapState_ok]

theorem SameFields.nameMap_eq (n : String) : (s.withConfig c).nameMap n = s.nameMap n := by
  rw [State.nameMap_eq_of_fields, State.nameMap_eq_of_fields, ← hc.fields]
  rfl

theorem SameFields.readWord_eq (r : Nat) : (s.withConfig c).readWord r = s.readWord r := by
  rw [State.readWord, hc.fieldsOf_eq]
  rfl

/-- Every operation commutes with such a change of the configuration. -/
theorem SameFields.operation_eq (i : Instr) :
    operation i (s.withConfig c) = mapState (State.withConfig c) (operation i s) := by
  have hraw : (s.withConfig c).config.raw = { s.config.raw with registers := c.raw.registers } :=
    hc.raw
  cases i with
  | setfield r j v =>
    simp only [operation, setfield, hc.resolveField_eq]
    cases resolveField s r j with
    | error e => rfl
    | ok f =>
      simp only [apply_ite (mapState _)]
      rfl
  | pack r =>
    simp only [operation, pack, hc.packRegister_eq]
    cases packRegister r s <;> rfl
  | decode r w => exact hc.decodeWord_eq r w
  | getfield r j =>
    simp only [operation, getfield, hc.resolveField_eq]
    cases resolveField s r j <;> rfl
  | lookup n =>
    simp only [operation, lookup, hc.nameMap_eq]
    cases s.nameMap n <;> rfl
  | boardaddr | fwversion =>
    simp only [operation, boardAddress, hraw, hc.readWord_eq]
    rfl
  | fwdate =>
    simp only [operation, hraw]
    rfl
  | push k =>
    simp only [operation, push, hraw]
    cases chunkRefused s.config.raw.chunkMode k <;> rfl
  | pushraw k =>
    simp only [operation, pushraw, hraw]
    cases chunkRefused s.config.raw.chunkMode k <;> rfl
  | wordmsb | bytesmsb | wordlsb | mkinstr | rststrm => rfl

end

/-- Settles O14: no operation reads more of a register than its fields, and the response is given
alike under both configurations. -/
theorem familyHasNoEffect : Obligations.FamilyHasNoEffect := by
  intro s c rs i hraw hrs t h
  have hfields : rs.map (·.fields) = s.registers.map (·.fields) := by
    simpa [Function.comp_def] using congrArg (List.map Prod.snd) hrs
  have hc : SameFields c s := ⟨by rw [hraw], by rw [hraw]; exact hfields⟩
  exact exec_of_operation_mapState (ψ := State.withConfig c) (hc.operation_eq i) (fun _ _ => rfl) h

end Sys2Proof.Machine
end

section
/-! PROOF. `LOOKUP` (`41_catalog.md` R123): the name map holds the location of exactly the field of
the name, which W3 makes the only one. -/

namespace Sys2Proof.Machine

section
variable {s : State} {n : String}

/-- An entry the search for a name finds is a field at its location, and has the name. -/
theorem find_name_eq_some {e : FieldAt}
    (h : s.config.raw.fieldList.find? (fun e => e.field.name == n) = some e) :
    s.HasField e.reg e.idx e.field ∧ e.field.name = n :=
  ⟨⟨e.register, RawConfig.mem_fieldList.1 (List.mem_of_find?_eq_some h)⟩,
    by simpa using List.find?_some h⟩

/-- R26: the name map holds a location exactly when the field there has the name. -/
theorem State.nameMap_eq_some_iff {r i : Nat} :
    s.nameMap n = some (r, i) ↔ ∃ f, s.HasField r i f ∧ f.name = n := by
  constructor
  · intro h
    obtain ⟨e, he, hloc⟩ := Option.map_eq_some_iff.1 h
    obtain ⟨rfl, rfl⟩ := Prod.mk.inj hloc
    exact ⟨e.field, find_name_eq_some he⟩
  · rintro ⟨f, ⟨g, hg, hf⟩, rfl⟩
    have hmem : (⟨r, i, g, f⟩ : FieldAt) ∈ s.config.raw.fieldList :=
      RawConfig.mem_fieldList.2 ⟨hg, hf⟩
    obtain ⟨e, he⟩ : ∃ e, s.config.raw.fieldList.find? (fun e => e.field.name == f.name) = some e :=
      Option.isSome_iff_exists.1 (List.find?_isSome.2 ⟨_, hmem, beq_self_eq_true f.name⟩)
    have hfirst : e = ⟨r, i, g, f⟩ :=
      s.config.name_unique (List.mem_of_find?_eq_some he) hmem (find_name_eq_some he).2
    rw [State.nameMap, he, hfirst]
    rfl

/-- R26: the name map holds nothing for a name exactly when no field has it. -/
theorem State.nameMap_eq_none_iff :
    s.nameMap n = none ↔ ∀ r i f, s.HasField r i f → f.name ≠ n := by
  rw [Option.eq_none_iff_forall_ne_some]
  constructor
  · exact fun h r i f hf hn => h (r, i) (State.nameMap_eq_some_iff.2 ⟨f, hf, hn⟩)
  · rintro h ⟨r, i⟩ hloc
    obtain ⟨f, hf, hn⟩ := State.nameMap_eq_some_iff.1 hloc
    exact h r i f hf hn

/-- `LOOKUP` of a name in the map hands back its location. -/
theorem exec_lookup_of_some {r i : Nat} (h : s.nameMap n = some (r, i)) :
    exec (.lookup n) s = .next (s.respond (.ok (.location r i))) := by
  rw [exec_eq_complete, operation, lookup, h, complete_ok]

/-- `LOOKUP` of a name that is not in the map fails. -/
theorem exec_lookup_of_none (h : s.nameMap n = none) :
    exec (.lookup n) s = .next (s.respond (.failed .lookupErr)) := by
  rw [exec_eq_complete, operation, lookup, h, complete_error, State.fail]

end

/-- Settles O15: a field's name is in the name map with its location, and a name no field has is
not in the map. -/
theorem lookupFindsExactlyTheNamedField : Obligations.LookupFindsExactlyTheNamedField :=
  ⟨fun _ _ _ f hf => exec_lookup_of_some (State.nameMap_eq_some_iff.2 ⟨f, hf, rfl⟩),
    fun _ _ h => exec_lookup_of_none (State.nameMap_eq_none_iff.2 h)⟩

end Sys2Proof.Machine
end

section
/-! PROOF. The two byte orders (`42_word_bytes.md` R130 to R135): the four bytes of a word stand in
disjoint bits, `BYTESMSB` inverts `MSB32`, and `LSB32` is `MSB32` of the reversed bytes. -/

namespace Sys2Proof.Machine

/-! ### The words as an OR of their bytes -/

/-- R130: `n` bytes make a number of `8 n` bits. -/
theorem msbN_lt (bs : List Byte) : msbN bs < 2 ^ (8 * bs.length) := by
  induction bs with
  | nil => simp [msbN]
  | cons b bs ih =>
    have hpow : 2 ^ (8 * (b :: bs).length) = 256 * 2 ^ (8 * bs.length) := by
      rw [List.length_cons, Nat.mul_succ, Nat.pow_add, Nat.mul_comm]
    have hb : b.toNat * 2 ^ (8 * bs.length) ≤ 255 * 2 ^ (8 * bs.length) :=
      Nat.mul_le_mul_right _ (Nat.le_of_lt_succ b.isLt)
    rw [msbN, Nat.shiftLeft_eq, hpow]
    omega

/-- R130: the first byte stands in the bits above those of the bytes after it. -/
theorem msbN_cons_eq_or (b : Byte) (bs : List Byte) :
    msbN (b :: bs) = b.toNat <<< (8 * bs.length) ||| msbN bs := by
  rw [msbN, Nat.shiftLeft_add_eq_or_of_lt (msbN_lt bs)]

/-- R130: `MSB32` is the OR of the bytes, byte `i` at bits `8 (3 − i)`. -/
theorem msb32_eq_or (b : Bytes4) : msb32 b =
    (b.b0.setWidth 32 <<< 24) ||| (b.b1.setWidth 32 <<< 16) ||| (b.b2.setWidth 32 <<< 8) |||
      b.b3.setWidth 32 := by
  have hnil : msbN [] = 0 := rfl
  apply BitVec.eq_of_toNat_eq
  have hbyte (a : Byte) : a.toNat % 4294967296 = a.toNat := by omega
  simp [msb32, Bytes4.toList, msbN_cons_eq_or, hnil, hbyte, Nat.or_assoc]

/-- R135: `LSB32` is `MSB32` of the bytes in the opposite order. -/
theorem lsb32_eq_msb32_reverse (b : Bytes4) : lsb32 b = msb32 b.reverse := by
  apply BitVec.eq_of_toNat_eq
  simp only [lsb32_toNat, msb32_toNat, Bytes4.reverse]
  omega

/-- R132: `LSB32` is the OR of the bytes, byte `i` at bits `8 i`. -/
theorem lsb32_eq_or (b : Bytes4) : lsb32 b =
    b.b0.setWidth 32 ||| (b.b1.setWidth 32 <<< 8) ||| (b.b2.setWidth 32 <<< 16) |||
      (b.b3.setWidth 32 <<< 24) := by
  rw [lsb32_eq_msb32_reverse, msb32_eq_or, Bytes4.reverse]
  simp only [BitVec.or_comm, BitVec.or_assoc]

/-! ### The bytes of a word -/

/-- R134: the four bytes of a word by value. -/
theorem bytesMsb_toNat (w : Word) :
    (bytesMsb w).b0.toNat = w.toNat / 2 ^ 24 ∧ (bytesMsb w).b1.toNat = w.toNat / 2 ^ 16 % 256 ∧
      (bytesMsb w).b2.toNat = w.toNat / 2 ^ 8 % 256 ∧ (bytesMsb w).b3.toNat = w.toNat % 256 := by
  have hbyte (k : Nat) : (w.extractLsb' k 8).toNat = w.toNat / 2 ^ k % 256 := by
    rw [BitVec.extractLsb'_toNat, Nat.shiftRight_eq_div_pow]
  have htop : w.toNat / 2 ^ 24 < 256 := by omega
  exact ⟨(hbyte 24).trans (Nat.mod_eq_of_lt htop), hbyte 16, hbyte 8,
    (hbyte 0).trans (by rw [Nat.pow_zero, Nat.div_one])⟩

/-- R135: a word is put together again from its bytes. -/
theorem msb32_bytesMsb (w : Word) : msb32 (bytesMsb w) = w := by
  obtain ⟨h0, h1, h2, h3⟩ := bytesMsb_toNat w
  apply BitVec.eq_of_toNat_eq
  rw [msb32_toNat, h0, h1, h2, h3]
  omega

/-- R130: four bytes are determined by their word. -/
theorem msb32_injective : Function.Injective msb32 := by
  rintro ⟨a0, a1, a2, a3⟩ ⟨b0, b1, b2, b3⟩ h
  have hnat := congrArg BitVec.toNat h
  simp only [msb32_toNat] at hnat
  simp only [Bytes4.mk.injEq, ← BitVec.toNat_inj]
  omega

/-- R135: four bytes are taken apart again from their word. -/
theorem bytesMsb_msb32 (b : Bytes4) : bytesMsb (msb32 b) = b :=
  msb32_injective (msb32_bytesMsb (msb32 b))

/-- R135: four bytes are their own reverse exactly when they are a palindrome. -/
theorem eq_reverse_iff (b : Bytes4) : b = b.reverse ↔ b.b0 = b.b3 ∧ b.b1 = b.b2 := by
  obtain ⟨b0, b1, b2, b3⟩ := b
  simp only [Bytes4.reverse, Bytes4.mk.injEq]
  exact ⟨fun ⟨h0, h1, _, _⟩ => ⟨h0, h1⟩, fun ⟨h0, h1⟩ => ⟨h0, h1, h1.symm, h0.symm⟩⟩

/-- Settles O19: `BYTESMSB` inverts `MSB32`, which is therefore injective, so that the two orders
agree on the byte sequences that are their own reverse. -/
theorem byteOrderLaws : Obligations.ByteOrderLaws := by
  refine ⟨msb32_bytesMsb, bytesMsb_msb32, lsb32_eq_msb32_reverse, fun b => ?_⟩
  rw [lsb32_eq_msb32_reverse, msb32_injective.eq_iff, eq_reverse_iff]

/-! ### The operations -/

/-- Settles O16: the word handed back is `MSB32` of the operand. -/
theorem wordmsbIsMostSignificantFirst : Obligations.WordmsbIsMostSignificantFirst := by
  intro b s
  rw [exec_eq_complete, operation, complete_ok, msb32_eq_or]

/-- Settles O17: the word handed back is `LSB32` of the operand. -/
theorem wordlsbIsLeastSignificantFirst : Obligations.WordlsbIsLeastSignificantFirst := by
  intro b s
  rw [exec_eq_complete, operation, complete_ok, lsb32_eq_or]

/-- Settles O18: the bytes handed back are those of `bytesMsb`. -/
theorem bytesmsbSplitsTheWord : Obligations.BytesmsbSplitsTheWord := by
  intro w s
  refine ⟨bytesMsb w, ?_, bytesMsb_toNat w⟩
  rw [exec_eq_complete, operation, complete_ok]

end Sys2Proof.Machine
end

section
/-! PROOF. The operations of the command channel (`43_command_words.md` R140 to R145). -/

namespace Sys2Proof.Machine

/-- R140: bit `j` of the instruction word is the address's bit `j`, with the module's bit `j - 8` ORed
in from bit 8 on and the read bit from bit 12 on. -/
theorem mkInstr_getLsbD (a : BitVec 12) (m : BitVec 4) (rw : BitVec 1) {j : Nat} (hj : j < 32) :
    (mkInstr a m rw).getLsbD j = (a.getLsbD j || (!decide (j < 8) && m.getLsbD (j - 8)) ||
      (!decide (j < 12) && rw.getLsbD (j - 12))) := by
  simp [mkInstr, hj]

/-- Settles O20: each bit group of the result is read off the bits of the instruction word; a group
above an operand's width has no bit of it. -/
theorem mkinstrBuildsTheInstructionWord : Obligations.MkinstrBuildsTheInstructionWord := by
  intro a m rw s
  refine ⟨mkInstr a m rw, exec_eq_complete _ s, ?_, ?_, ?_, ?_⟩ <;>
    refine BitVec.eq_of_getLsbD_eq fun j hj => ?_
  · have h8 : j < 8 := hj
    have h12 : j < 12 := by omega
    simp [mkInstr_getLsbD a m rw (by omega : j < 32), h8, h12]
  · have h12 : 8 + j < 12 := by omega
    simp [mkInstr_getLsbD a m rw (by omega : 8 + j < 32), hj, h12]
  · have hm : m.getLsbD (12 + j - 8) = false := BitVec.getLsbD_of_ge m _ (by omega)
    simp [mkInstr_getLsbD a m rw (by omega : 12 + j < 32), hj, hm]
  · have ha : a.getLsbD (13 + j) = false := BitVec.getLsbD_of_ge a _ (by omega)
    have hm : m.getLsbD (13 + j - 8) = false := BitVec.getLsbD_of_ge m _ (by omega)
    have hrw : rw.getLsbD (13 + j - 12) = false := BitVec.getLsbD_of_ge rw _ (by omega)
    simp [mkInstr_getLsbD a m rw (by omega : 13 + j < 32), ha, hm, hrw]

/-- Settles O21: the address handed back is the complement of the low nibble. -/
theorem boardaddrComplementsTheLowNibble : Obligations.BoardaddrComplementsTheLowNibble :=
  fun s => ⟨boardAddress s, exec_eq_complete .boardaddr s, boardAddress_toNat s⟩

/-- Settles O22: both accessors complete with what they read, in the state they read it from. -/
theorem firmwareAccessorsReturnTheReadCells : Obligations.FirmwareAccessorsReturnTheReadCells :=
  fun s => ⟨exec_eq_complete .fwversion s, exec_eq_complete .fwdate s⟩

end Sys2Proof.Machine
end

section
/-! PROOF. The transaction procedures (`43_command_words.md` R150 to R153): what a full exchange
decodes, and what any other leaves. -/

namespace Sys2Proof.Machine

variable {s : State} {q r i : Nat} {m : BitVec 4} {g : RegisterDesc} {f : FieldDesc}
  {ack : List Byte}

/-! ### Decoding an acknowledge pair -/

/-- R152: an acknowledge pair is two words, the header first. -/
theorem msbWordAt_pair (h0 h1 h2 h3 d0 d1 d2 d3 : Byte) :
    msbWordAt [h0, h1, h2, h3, d0, d1, d2, d3] 0 = msb32 ⟨h0, h1, h2, h3⟩ ∧
      msbWordAt [h0, h1, h2, h3, d0, d1, d2, d3] 4 = msb32 ⟨d0, d1, d2, d3⟩ :=
  ⟨rfl, rfl⟩

/-- A field of 32 bits at bit 0 is the whole word. -/
theorem extractField_full (w : Word) : extractField w 0 32 = w := by
  apply BitVec.eq_of_toNat_eq
  rw [extractField_toNat, Nat.pow_zero, Nat.div_one, Nat.mod_eq_of_lt w.isLt]

/-- W9: the acknowledge header register has one field, of 32 bits. -/
theorem State.ackHdrReg_field (s : State) : ∃ g f, s.registers[s.config.raw.ackHdrReg]? = some g ∧
    g.fields[0]? = some f ∧ f.bitWidth = 32 := by
  obtain ⟨-, -, -, ⟨g, hg, hw⟩, -⟩ := s.config.roles_valid
  obtain ⟨f, hf, hw⟩ := List.map_eq_singleton_iff.1 hw
  exact ⟨g, f, hg, by rw [hf]; rfl, hw⟩

/-- R152: the data word is decoded last, into the cells of the given register. -/
theorem State.Inv.decodeAck_readCell (hI : s.Inv) (hg : s.registers[q]? = some g)
    (hf : g.fields[i]? = some f) :
    (s.decodeAck q ack).readCell q i =
      extractField (msbWordAt ack 4) (offsetOf g.fields i) f.bitWidth := by
  obtain ⟨gh, -, hgh, -⟩ := s.ackHdrReg_field
  exact (hI.decodeInto hgh (msbWordAt ack 0)).decodeInto_readCell hg hf _

/-- R152: the header word stays in `ACK_HDR_REG` unless the data word is decoded there too. -/
theorem State.Inv.decodeAck_readCell_header (hI : s.Inv) (hq : s.config.raw.ackHdrReg ≠ q) :
    (s.decodeAck q ack).readCell s.config.raw.ackHdrReg 0 = msbWordAt ack 0 := by
  obtain ⟨gh, f, hgh, hf, hw⟩ := s.ackHdrReg_field
  rw [State.decodeAck, State.decodeInto_readCell_ne hq, hI.decodeInto_readCell hgh hf,
    offsetOf_zero, hw, extractField_full]

/-- Where the data word is decoded into `ACK_HDR_REG`, that register holds it. -/
theorem State.Inv.decodeAck_readCell_header_self (hI : s.Inv) :
    (s.decodeAck s.config.raw.ackHdrReg ack).readCell s.config.raw.ackHdrReg 0 =
      msbWordAt ack 4 := by
  obtain ⟨gh, f, hgh, hf, hw⟩ := s.ackHdrReg_field
  rw [hI.decodeAck_readCell hgh hf, offsetOf_zero, hw, extractField_full]

/-- Decoding an acknowledge pair leaves the `READ` cells of the other registers. -/
theorem State.decodeAck_readCell_ne {k : Nat} (hhdr : k ≠ s.config.raw.ackHdrReg) (hq : k ≠ q)
    (j : Nat) : (s.decodeAck q ack).readCell k j = s.readCell k j := by
  rw [State.decodeAck, State.decodeInto_readCell_ne hq, State.decodeInto_readCell_ne hhdr]

/-! ### A full exchange -/

theorem receiveAck_received (hack : ack.length = 8) (calls : List TransportCall) :
    receiveAck q calls (.received ack) s =
      ⟨.completed, s.decodeAck q ack, calls ++ [.receive .ackRead 8]⟩ := by
  simp only [receiveAck, receiveExactly_eq_ok.2 ⟨rfl, hack⟩]

/-- R150: the 4 bytes of a word go through when the transport answers a count of at least 4. -/
theorem sendEnds_word {n : Nat} (hn : 4 ≤ n) (b : Bytes4) : sendEnds b.toList (.sent n) = none :=
  sendEnds_eq_none.2 ⟨n, rfl, hn⟩

/-- R151: the calls and the state of a write transaction whose every transport call succeeds. -/
theorem writeTransaction_completed {data : Word} {n k : Nat} (hg : s.registers[r]? = some g)
    (hdata : packRegister r s = .ok data) (hn : 4 ≤ n) (hk : 4 ≤ k) (hack : ack.length = 8) :
    writeTransaction r m ⟨.sent n, .sent k, .received ack⟩ s =
      ⟨.completed, s.decodeAck s.config.raw.ackDataReg ack,
        [.send .instrDataWrite (instrBytes g m 0).toList,
          .send .instrDataWrite (bytesMsb data).toList, .receive .ackRead 8]⟩ := by
  simp only [writeTransaction, resolveRegister_ok_iff.2 hg, hdata, sendEnds_word hn,
    sendEnds_word hk, receiveAck_received hack, List.cons_append, List.nil_append]

/-- R153: the calls and the state of a read transaction whose every transport call succeeds. -/
theorem readTransaction_completed {n : Nat} (a : SendAnswer) (hg : s.registers[r]? = some g)
    (hn : 4 ≤ n) (hack : ack.length = 8) :
    readTransaction r m ⟨.sent n, a, .received ack⟩ s =
      ⟨.completed, s.decodeAck r ack,
        [.send .instrDataWrite (instrBytes g m 1).toList, .receive .ackRead 8]⟩ := by
  simp only [readTransaction, resolveRegister_ok_iff.2 hg, sendEnds_word hn,
    receiveAck_received hack, List.cons_append, List.nil_append]

/-! ### Any exchange -/

/-- How a transaction from `s` with its data word decoded into register `q` can end: completed, with
an acknowledge pair decoded, or not completed, in the state it began with (R154). -/
inductive TransactionEnd.CommitsTo (s : State) (q : Nat) : TransactionEnd → Prop
  | completed (ack : List Byte) (calls : List TransportCall) :
      CommitsTo s q ⟨.completed, s.decodeAck q ack, calls⟩
  | aborted {o : TransactionOutcome} (ho : o ≠ .completed) (calls : List TransportCall) :
      CommitsTo s q ⟨o, s, calls⟩

theorem TransactionEnd.CommitsTo.state_eq {e : TransactionEnd} (h : e.CommitsTo s q)
    (ho : e.outcome ≠ .completed) : e.state = s := by
  cases h with
  | completed => exact absurd rfl ho
  | aborted => rfl

theorem TransactionEnd.CommitsTo.setCells_eq {e : TransactionEnd} (h : e.CommitsTo s q) :
    e.state.setCells = s.setCells := by
  cases h with
  | completed | aborted => rfl

theorem sendEnds_ne_completed {bytes : List Byte} {a : SendAnswer} {o : TransactionOutcome}
    (h : sendEnds bytes a = some o) : o ≠ .completed := by
  rintro rfl
  cases a <;> simp [sendEnds] at h

theorem receiveAck_commitsTo (q : Nat) (calls : List TransportCall) (a : ReceiveAnswer)
    (s : State) : (receiveAck q calls a s).CommitsTo s q := by
  rcases receiveAck_cases q calls a s with ⟨ack, -, -, h⟩ | ⟨o, ho, h⟩
  · exact h ▸ .completed ack _
  · exact h ▸ .aborted ho _

theorem writeTransaction_commitsTo (r : Nat) (m : BitVec 4) (tr : TransportAnswers) (s : State) :
    (writeTransaction r m tr s).CommitsTo s s.config.raw.ackDataReg := by
  have hfailed : ∀ e : Failure, TransactionOutcome.failed e ≠ .completed := by simp
  unfold writeTransaction
  cases resolveRegister s r with
  | error e => exact .aborted (hfailed e) _
  | ok g =>
    cases packRegister r s with
    | error e => exact .aborted (hfailed e) _
    | ok data =>
      cases hI : sendEnds (instrBytes g m 0).toList tr.sendInstr with
      | some o => simpa only [hI] using .aborted (sendEnds_ne_completed hI) _
      | none =>
        cases hD : sendEnds (bytesMsb data).toList tr.sendData with
        | some o => simpa only [hI, hD] using .aborted (sendEnds_ne_completed hD) _
        | none => simpa only [hI, hD] using receiveAck_commitsTo _ _ _ s

theorem readTransaction_commitsTo (r : Nat) (m : BitVec 4) (tr : TransportAnswers) (s : State) :
    (readTransaction r m tr s).CommitsTo s r := by
  unfold readTransaction
  cases resolveRegister s r with
  | error e => exact .aborted (by simp) _
  | ok g =>
    cases hI : sendEnds (instrBytes g m 1).toList tr.sendInstr with
    | some o => simpa only [hI] using .aborted (sendEnds_ne_completed hI) _
    | none => simpa only [hI] using receiveAck_commitsTo _ _ _ s

/-- Settles O50: the procedure sends the word `PACK` returns and decodes the acknowledge pair, whose
data word comes last. -/
theorem writeTransactionSendsAndDecodes : Obligations.WriteTransactionSendsAndDecodes := by
  intro s r m g n k h0 h1 h2 h3 d0 d1 d2 d3 hI hg hne hn hk
  obtain ⟨hheader, hdata⟩ := msbWordAt_pair h0 h1 h2 h3 d0 d1 d2 d3
  refine ⟨_, _, exec_pack hI hg hne,
    writeTransaction_completed hg (packRegister_eq_ok hI hg hne) hn hk rfl, ?_, ?_,
    fun q i hhdr hq => State.decodeAck_readCell_ne hhdr hq i, rfl, rfl, rfl, rfl⟩
  · split
    next hsame => rw [← hsame, hI.decodeAck_readCell_header_self, hdata]
    next hdiff => rw [hI.decodeAck_readCell_header hdiff, hheader]
  · rintro f ⟨gd, hgd, hf⟩
    rw [hI.decodeAck_readCell hgd hf, hdata, extractField_toNat, offsetOf_zero, Nat.pow_zero,
      Nat.div_one]

/-- Settles O51: the procedure decodes the acknowledge pair, with the data word into the register
read, and no decode touches `SET`. -/
theorem readTransactionDecodesTheTarget : Obligations.ReadTransactionDecodesTheTarget := by
  refine ⟨fun s r m g n a h0 h1 h2 h3 d0 d1 d2 d3 hI hg hn => ?_,
    fun s r m tr => (readTransaction_commitsTo r m tr s).setCells_eq⟩
  obtain ⟨hheader, hdata⟩ := msbWordAt_pair h0 h1 h2 h3 d0 d1 d2 d3
  refine ⟨_, readTransaction_completed a hg hn rfl, fun i f hf => ?_, fun hr => ?_,
    fun q i hhdr hq => State.decodeAck_readCell_ne hhdr hq i, rfl, rfl, rfl⟩
  · rw [hI.decodeAck_readCell hg hf, hdata, extractField_toNat]
  · rw [hI.decodeAck_readCell_header hr, hheader]

end Sys2Proof.Machine
end

section
/-! PROOF. The commit rule of a field write (`43_command_words.md` R154, R155): the `SETFIELD`s change
the `SET` cells of the fields named and nothing else, and the restore undoes exactly those. -/

namespace Sys2Proof.Machine

variable {s t u : State} {r : Nat} {is js : List Nat}

/-! ### States that differ in `SET` cells of one register -/

/-- `t` is `s` but for the values of the cells `SET[r][i]` with `i` in `is`. -/
structure State.EqExcept (s t : State) (r : Nat) (is : List Nat) : Prop where
  frame : t = { s with setCells := t.setCells }
  shape : t.setCells.map List.length = s.setCells.map List.length
  cells : ∀ k j, (k = r → j ∉ is) → t.setCell k j = s.setCell k j

theorem State.EqExcept.registers_eq (h : s.EqExcept t r is) : t.registers = s.registers := by
  rw [h.frame]
  rfl

theorem State.EqExcept.refl (s : State) (r : Nat) (is : List Nat) : s.EqExcept s r is :=
  ⟨rfl, rfl, fun _ _ _ => rfl⟩

theorem State.EqExcept.mono (h : s.EqExcept t r is) (hsub : is ⊆ js) : s.EqExcept t r js :=
  ⟨h.frame, h.shape, fun k j hj => h.cells k j fun hk hi => hj hk (hsub hi)⟩

theorem State.EqExcept.trans (hst : s.EqExcept t r is) (htu : t.EqExcept u r js) :
    s.EqExcept u r (is ++ js) where
  frame := by rw [htu.frame, hst.frame]
  shape := htu.shape.trans hst.shape
  cells k j hj := (htu.cells k j fun hk hm => hj hk (List.mem_append_right _ hm)).trans
    (hst.cells k j fun hk hm => hj hk (List.mem_append_left _ hm))

theorem State.eqExcept_writeSet (s : State) (r i : Nat) (v : Word) :
    s.EqExcept (s.writeSet r i v) r [i] where
  frame := rfl
  shape := lengths_set (by simp [State.setRow])
  cells k j hj := State.writeSet_setCell_ne fun hloc => by
    obtain ⟨rfl, rfl⟩ := Prod.mk.inj hloc
    exact hj rfl (List.mem_singleton_self _)

/-- Two stores of one shape that agree on every cell are equal. -/
theorem setCells_ext (hshape : t.setCells.map List.length = s.setCells.map List.length)
    (hcells : ∀ k j, t.setCell k j = s.setCell k j) : t.setCells = s.setCells := by
  have hlen : t.setCells.length = s.setCells.length := by simpa using congrArg List.length hshape
  refine List.ext_getElem hlen fun k hkt hks => ?_
  have hrow : t.setCells[k].length = s.setCells[k].length := by
    simpa [hkt, hks] using congrArg (·[k]?) hshape
  refine List.ext_getElem hrow fun j hjt hjs => ?_
  simpa [State.setCell, State.setRow, rowOf, hkt, hks, hjt, hjs] using hcells k j

theorem State.EqExcept.eq_of_nil (h : s.EqExcept t r []) : t = s := by
  rw [h.frame, setCells_ext h.shape fun k j => h.cells k j fun _ => List.not_mem_nil]

/-! ### Reading the old values and restoring them -/

/-- R154: the old values are those of existing fields, in the order of the list. -/
theorem readOld_eq_ok {old : List (Nat × Word)} (h : readOld r s is = .ok old) :
    old = is.map (fun i => (i, s.setCell r i)) ∧ ∀ i ∈ is, ∃ f, s.HasField r i f := by
  induction is generalizing old with
  | nil => exact ⟨(Except.ok.inj h).symm, by simp⟩
  | cons i is ih =>
    rw [readOld] at h
    cases hf : resolveField s r i with
    | error e => simp [hf] at h
    | ok f =>
      cases hold : readOld r s is with
      | error e => simp [hf, hold] at h
      | ok old' =>
        obtain ⟨rfl, hfields⟩ := ih hold
        simp only [hf, hold, Except.ok.injEq] at h
        exact ⟨h.symm, List.forall_mem_cons.2 ⟨⟨f, resolveField_ok_iff.1 hf⟩, hfields⟩⟩

/-- Putting one old value back, which is in range, leaves one cell less to put back. -/
theorem State.EqExcept.setfield_old (hI : s.Inv) {i : Nat} {f : FieldDesc}
    (hf : s.HasField r i f) (h : s.EqExcept t r (i :: is)) :
    ∃ u, setfield r i (s.setCell r i) t = .ok (u, .nothing) ∧ s.EqExcept u r is := by
  obtain ⟨g, hg, hgf⟩ := hf
  have hgt : t.registers[r]? = some g := h.registers_eq ▸ hg
  obtain ⟨hmin, hmax⟩ := hI.setInRange ⟨r, i, g, f⟩ (RawConfig.mem_fieldList.2 ⟨hg, hgf⟩)
  have hw := t.eqExcept_writeSet r i (s.setCell r i)
  refine ⟨t.writeSet r i (s.setCell r i), setfield_eq_ok hgt hgf hmin hmax,
    (h.trans hw).frame, (h.trans hw).shape, fun k j hj => ?_⟩
  by_cases hloc : (k, j) = (r, i)
  · obtain ⟨rfl, rfl⟩ := Prod.mk.inj hloc
    obtain ⟨hr, hlen⟩ := row_length (h.shape.trans hI.setShape) hg
    exact State.writeSet_setCell_self hr (hlen ▸ (List.getElem?_eq_some_iff.1 hgf).1)
  · rw [State.writeSet_setCell_ne hloc]
    refine h.cells k j fun hk hm => ?_
    rcases List.mem_cons.1 hm with rfl | hm
    · exact hloc (by rw [hk])
    · exact hj hk hm

/-- R154: the restore puts back every cell that differs, and always succeeds. -/
theorem restore_eq (hI : s.Inv) (hfields : ∀ i ∈ is, ∃ f, s.HasField r i f)
    (h : s.EqExcept t r is) : restore r (is.map fun i => (i, s.setCell r i)) t = s := by
  induction is generalizing t with
  | nil => exact h.eq_of_nil
  | cons i is ih =>
    obtain ⟨⟨f, hf⟩, hfields⟩ := List.forall_mem_cons.1 hfields
    obtain ⟨u, hset, hu⟩ := h.setfield_old hI hf
    have hcons : restore r ((i :: is).map fun i => (i, s.setCell r i)) t =
        restore r (is.map fun i => (i, s.setCell r i)) u := by
      simp only [restore, List.map_cons, List.foldl_cons, hset]
    exact hcons.trans (ih hfields hu)

/-! ### Setting the fields -/

variable {n : Nat} {o : Option Failure} {pairs : List (Nat × Word)}

/-- What the first of several `SETFIELD`s can do: fail and end the procedure, or take its effect
before the rest are issued. -/
theorem setMany_cons_cases {i : Nat} {v : Word} (h : setMany r ((i, v) :: pairs) s = (n, o, t)) :
    (n = 0 ∧ o ≠ none ∧ t = s) ∨
      ∃ f k, s.HasField r i f ∧ Effect s (.setfield r i v) .nothing (s.writeSet r i v) ∧
        n = k + 1 ∧ setMany r pairs (s.writeSet r i v) = (k, o, t) := by
  rw [setMany] at h
  cases hset : setfield r i v s with
  | error e =>
    simp only [hset, Prod.mk.injEq] at h
    obtain ⟨rfl, rfl, rfl⟩ := h
    exact .inl ⟨rfl, by simp, rfl⟩
  | ok p =>
    obtain ⟨u, res⟩ := p
    simp only [hset, Prod.mk.injEq] at h
    obtain ⟨rfl, h⟩ := h
    cases effect_setfield hset with
    | pure hpure => cases hpure
    | setfield hg hf hmin hmax =>
      exact .inr ⟨_, _, ⟨_, hg, hf⟩, .setfield hg hf hmin hmax, rfl, Prod.ext rfl h⟩

/-- Several `SETFIELD`s write the cells of those that succeeded. -/
theorem setMany_eqExcept (h : setMany r pairs s = (n, o, t)) :
    s.EqExcept t r ((pairs.take n).map (·.1)) := by
  induction pairs generalizing s n with
  | nil =>
    obtain ⟨-, -, rfl⟩ : 0 = n ∧ none = o ∧ s = t := by simpa [setMany] using h
    exact .refl s r _
  | cons p pairs ih =>
    rcases setMany_cons_cases h with ⟨-, -, rfl⟩ | ⟨f, k, -, -, rfl, hrest⟩
    · exact .refl t r _
    · exact (s.eqExcept_writeSet r p.1 p.2).trans (ih hrest)

/-- Where every `SETFIELD` succeeds and no field is named twice, every cell has its new value. -/
theorem setMany_setCell (hI : s.Inv) (hnodup : (pairs.map (·.1)).Nodup)
    (h : setMany r pairs s = (n, none, t)) : ∀ p ∈ pairs, t.setCell r p.1 = p.2 := by
  induction pairs generalizing s n with
  | nil => simp
  | cons p pairs ih =>
    obtain ⟨hp, hnodup⟩ := List.nodup_cons.1 hnodup
    rcases setMany_cons_cases h with ⟨-, hne, -⟩ | ⟨f, k, hf, he, -, hrest⟩
    · exact absurd rfl hne
    · refine List.forall_mem_cons.2 ⟨?_, ih (he.inv hI) hnodup hrest⟩
      have hp' : p.1 ∉ (pairs.take k).map (·.1) := fun hm =>
        hp (List.map_subset _ (List.take_subset _ _) hm)
      rw [(setMany_eqExcept hrest).cells r p.1 fun _ => hp', hI.writeSet_setCell_self hf]

/-! ### The field write -/

/-- What a field write can do: fail in the state it began with, or set every field and end as its
write transaction does, without a failure. -/
theorem writeFields_cases (hI : s.Inv) (r : Nat) (m : BitVec 4) (pairs : List (Nat × Word))
    (tr : TransportAnswers) :
    (∃ e, (writeFields r m pairs tr s).outcome = .failed e ∧
        (writeFields r m pairs tr s).state = s) ∨
      ∃ n t, setMany r pairs s = (n, none, t) ∧
        writeFields r m pairs tr s = writeTransaction r m tr t ∧
        ∀ e, (writeTransaction r m tr t).outcome ≠ .failed e := by
  unfold writeFields
  cases hold : readOld r s (pairs.map (·.1)) with
  | error e => exact .inl ⟨e, rfl, rfl⟩
  | ok old =>
    obtain ⟨rfl, hfields⟩ := readOld_eq_ok hold
    rcases hset : setMany r pairs s with ⟨n, _ | e, t⟩
    · cases hout : (writeTransaction r m tr t).outcome with
      | completed => exact .inr ⟨n, t, rfl, by simp only [hout], by simp [hout]⟩
      | hung => exact .inr ⟨n, t, rfl, by simp only [hout], by simp [hout]⟩
      | failed e =>
        refine .inl ⟨e, by simp only [hout], ?_⟩
        have hstate : (writeTransaction r m tr t).state = t :=
          (writeTransaction_commitsTo r m tr t).state_eq (by simp [hout])
        simp only [hout, hstate]
        exact restore_eq hI hfields
          ((setMany_eqExcept hset).mono (List.map_subset _ (List.take_subset _ _)))
    · refine .inl ⟨e, rfl, ?_⟩
      have hfields' : ∀ i ∈ (pairs.take n).map (·.1), ∃ f, s.HasField r i f := fun i hi =>
        hfields i (List.map_subset _ (List.take_subset _ _) hi)
      simp only [← List.map_take]
      exact restore_eq hI hfields' (setMany_eqExcept hset)

/-- Settles O52: a transaction commits only when it completes; a field write fails in the state it
began with, and otherwise its transaction leaves the `SET` cells just set. -/
theorem failedTransactionsLeaveNoTrace : Obligations.FailedTransactionsLeaveNoTrace := by
  refine ⟨fun s r m tr => (writeTransaction_commitsTo r m tr s).state_eq,
    fun s r m tr => (readTransaction_commitsTo r m tr s).state_eq,
    fun s r m pairs tr e hI he => ?_, fun s r m pairs tr hI hnodup hok => ?_⟩
  · rcases writeFields_cases hI r m pairs tr with ⟨-, -, hs⟩ | ⟨n, t, -, hw, hok⟩
    · exact hs
    · exact absurd (hw ▸ he) (hok e)
  · rcases writeFields_cases hI r m pairs tr with ⟨e, he, -⟩ | ⟨n, t, hset, hw, -⟩
    · exact absurd he (hok e)
    · have hc := writeTransaction_commitsTo r m tr t
      rw [hw]
      refine ⟨fun p hp => ?_, fun hhung => ?_⟩
      · rw [State.setCell, State.setRow, hc.setCells_eq]
        exact setMany_setCell hI hnodup hset p hp
      · rw [hc.state_eq (by simp [hhung]), (setMany_eqExcept hset).frame]

end Sys2Proof.Machine
end

section
/-! PROOF. The decode of one monitoring record (`30_encoding.md` R83 to R85,
`44_stream_reassembler.md` R167). -/

namespace Sys2Proof.Machine

/-- R167: a component is the stated bits of its word. -/
theorem component_toNat {width : Nat} (p : Place width) (g : SixWords) :
    (component p g).toNat = (headWord g p.word).toNat / 2 ^ p.pos.val % 2 ^ width := by
  rw [component, BitVec.extractLsb'_toNat, Nat.shiftRight_eq_div_pow]

/-- R84: the words a component may stand in are `W0`, `W1` and `W2`. -/
theorem headWord_eq_ite (g : SixWords) (k : Fin 3) :
    headWord g k = if k = 0 then g.w0 else if k = 1 then g.w1 else g.w2 := by
  match k with
  | 0 | 1 | 2 => rfl

/-- R83: the low half of the timestamp stands below the high half, so that ORing them adds them. -/
theorem shiftLeft_or_toNat (high low : BitVec 24) :
    ((high.setWidth 48 <<< 24) ||| low.setWidth 48).toNat =
      high.toNat * 2 ^ 24 + low.toNat := by
  have hshift : high.toNat <<< 24 < 2 ^ 48 := by
    rw [Nat.shiftLeft_eq]
    omega
  have hhigh : high.toNat < 2 ^ 48 := by omega
  have hlow : low.toNat < 2 ^ 48 := by omega
  rw [BitVec.toNat_or, BitVec.toNat_shiftLeft, BitVec.toNat_setWidth, BitVec.toNat_setWidth,
    Nat.mod_eq_of_lt hhigh, Nat.mod_eq_of_lt hshift, Nat.mod_eq_of_lt hlow,
    ← Nat.shiftLeft_add_eq_or_of_lt low.isLt, Nat.shiftLeft_eq]

/-- Settles O28: each component is extracted from the word of its place, and the channels from the
low and the stated high position of words 3, 4, 5. -/
theorem decodeRecordExtractsTheComponents : Obligations.DecodeRecordExtractsTheComponents := by
  intro l p g x word
  have hcomponent {width : Nat} (q : Place width) :
      (component q g).toNat = (word q.word).toNat / 2 ^ q.pos.val % 2 ^ width := by
    rw [component_toNat, headWord_eq_ite]
  refine ⟨?_, hcomponent l.moduleAddress, hcomponent l.dataType, hcomponent l.timestampHigh,
    hcomponent l.timestampLow, shiftLeft_or_toNat _ _, ?_⟩
  · have hldo : x.ldoOn = true ↔ (component l.ldoOn g).toNat = 1 :=
      beq_iff_eq.trans BitVec.toNat_inj.symm
    rw [hldo, hcomponent]
    rfl
  · simp [x, decodeRecord, Nat.shiftRight_eq_div_pow]

end Sys2Proof.Machine
end

section
/-! PROOF. `PUSH`, `PUSHRAW` and `RSTSTRM` one at a time (`44_stream_reassembler.md` R160 to
R176). -/

namespace Sys2Proof.Machine

variable {s t : State} {c : List Byte}

/-! ### The records of a word sequence -/

@[simp] theorem recordsOfWords_length (d : Config) (ws : List Word) :
    (recordsOfWords d ws).length = ws.length / 6 := by
  simp [recordsOfWords]

/-- Grouping words gives their groups of six, in order. -/
theorem cutGroups_fst (ws : List Word) :
    (cutGroups ws).1 = (List.range (ws.length / 6)).map (groupAt ws) := by
  match ws with
  | w0 :: w1 :: w2 :: w3 :: w4 :: w5 :: rest =>
    have hlen : (w0 :: w1 :: w2 :: w3 :: w4 :: w5 :: rest).length / 6 = rest.length / 6 + 1 := by
      simp only [List.length_cons]; omega
    rw [cutGroups, cutGroups_fst rest, hlen, List.range_succ_eq_map, List.map_cons, List.map_map]
    rfl
  | [] | [_] | [_, _] | [_, _, _] | [_, _, _, _] | [_, _, _, _, _] =>
    rw [cutGroups_short (by simp)]
    simp

/-- R160 step 3: decoding the groups cut from a word sequence gives the sequence's records. -/
theorem map_decodeRecord_cutGroups (d : Config) (ws : List Word) :
    (cutGroups ws).1.map (decodeRecord d.raw.recLayout d.raw.chHiPos) = recordsOfWords d ws := by
  rw [cutGroups_fst, List.map_map, recordsOfWords]
  rfl

/-- R160: what taking in a chunk cuts and leaves, in closed form. -/
theorem acceptChunk_eq (c : List Byte) (s : State) :
    acceptChunk c s =
      ((cutGroups (s.carry ++ wordsOfStream (s.resid ++ c))).1,
        s.writeDecoder (cutGroups (s.carry ++ wordsOfStream (s.resid ++ c))).2
          ((s.resid ++ c).drop (4 * ((s.resid ++ c).length / 4)))) := by
  rw [acceptChunk, streamWords, cutWords_eq]

/-! ### The end-of-run check -/

/-- R166: `eor` is 1 exactly for a chunk that ends in four bytes whose `LSB32` is the marker. -/
theorem endOfRun_iff_exists_append {m : Word} :
    endOfRun m c = true ↔ ∃ pre b, c = pre ++ Bytes4.toList b ∧ lsb32 b = m := by
  constructor
  · intro h
    unfold endOfRun at h
    split at h
    case h_1 b3 b2 b1 b0 rest hrev =>
      refine ⟨rest.reverse, ⟨b0, b1, b2, b3⟩, ?_, beq_iff_eq.1 h⟩
      rw [← List.reverse_reverse c, hrev]
      simp [Bytes4.toList]
    case h_2 => cases h
  · rintro ⟨pre, b, rfl, rfl⟩
    simp [endOfRun, Bytes4.toList]

/-- A chunk of at least 4 bytes ends in four bytes. -/
theorem exists_append_toList (h : 4 ≤ c.length) : ∃ pre b, c = pre ++ Bytes4.toList b := by
  obtain ⟨b0, b1, b2, b3, hb⟩ : ∃ b0 b1 b2 b3, c.drop (c.length - 4) = [b0, b1, b2, b3] :=
    List.length_eq_four.1 (by rw [List.length_drop]; omega)
  refine ⟨c.take (c.length - 4), ⟨b0, b1, b2, b3⟩, ?_⟩
  rw [Bytes4.toList, ← hb, List.take_append_drop]

/-- R132: the word at the end of a chunk that ends in four bytes is their `LSB32`. -/
theorem wordAt_append_toList (pre : List Byte) (b : Bytes4) :
    wordAt (pre ++ b.toList) ((pre ++ b.toList).length - 4) = lsb32 b := by
  have hlen : (pre ++ b.toList).length - 4 = pre.length := by simp [Bytes4.toList]
  rw [hlen, wordAt, List.drop_left]
  rfl

/-- R166: `eor` compares the chunk's last word with the marker. -/
theorem endOfRun_iff {m : Word} :
    endOfRun m c = true ↔ 4 ≤ c.length ∧ wordAt c (c.length - 4) = m := by
  rw [endOfRun_iff_exists_append]
  constructor
  · rintro ⟨pre, b, rfl, hb⟩
    exact ⟨by simp [Bytes4.toList], (wordAt_append_toList pre b).trans hb⟩
  · rintro ⟨hlen, hword⟩
    obtain ⟨pre, b, rfl⟩ := exists_append_toList hlen
    exact ⟨pre, b, rfl, (wordAt_append_toList pre b).symm.trans hword⟩

/-! ### Accepted and refused chunks -/

/-- R163, R176: which chunks `CHUNK_MODE` refuses. -/
theorem chunkRefused_iff {mode : ChunkMode} :
    chunkRefused mode c = true ↔ mode = .word ∧ c.length % 4 ≠ 0 := by
  cases mode <;> simp [chunkRefused]

theorem chunkRefused_eq_false {mode : ChunkMode} (h : ¬(mode = .word ∧ c.length % 4 ≠ 0)) :
    chunkRefused mode c = false :=
  Bool.eq_false_iff.2 fun hc => h (chunkRefused_iff.1 hc)

/-- R160: what `PUSH` does with a chunk it accepts. -/
theorem exec_push (hc : chunkRefused s.config.raw.chunkMode c = false) :
    exec (.push c) s = .next ((acceptChunk c s).2.respond (.ok (.records
      (recordsOfWords s.config (s.carry ++ wordsOfStream (s.resid ++ c)))
      (endOfRun s.config.raw.eorMarker c)))) := by
  rw [exec_eq_complete, operation, push, hc, ← map_decodeRecord_cutGroups, acceptChunk_eq]
  rfl

/-- R172: what `PUSHRAW` does with a chunk it accepts. -/
theorem exec_pushraw (hc : chunkRefused s.config.raw.chunkMode c = false) :
    exec (.pushraw c) s = .next ((acceptChunk c s).2.respond (.ok (.raw c
      (endOfRun s.config.raw.eorMarker c)))) := by
  rw [exec_eq_complete, operation, pushraw, hc]
  rfl

theorem exec_push_refused (hc : chunkRefused s.config.raw.chunkMode c = true) :
    exec (.push c) s = .next (s.respond (.failed .formatErr)) := by
  rw [exec_eq_complete, operation, push, hc]
  rfl

theorem exec_pushraw_refused (hc : chunkRefused s.config.raw.chunkMode c = true) :
    exec (.pushraw c) s = .next (s.respond (.failed .formatErr)) := by
  rw [exec_eq_complete, operation, pushraw, hc]
  rfl

/-- A `PUSH` that hands back records accepted its chunk. -/
theorem chunkRefused_of_exec_push_records {rs : List MonitoringRecord} {eor : Bool}
    (h : exec (.push c) s = .next t) (hp : t.response = some (.ok (.records rs eor))) :
    chunkRefused s.config.raw.chunkMode c = false := by
  by_contra hc
  obtain rfl := Host.Outcome.next.inj
    (h.symm.trans (exec_push_refused (Bool.eq_true_of_not_eq_false hc)))
  cases hp

/-- What a `PUSH` that hands back records did. -/
theorem exec_push_records {rs : List MonitoringRecord} {eor : Bool}
    (h : exec (.push c) s = .next t) (hp : t.response = some (.ok (.records rs eor))) :
    rs = recordsOfWords s.config (s.carry ++ wordsOfStream (s.resid ++ c)) ∧
      eor = endOfRun s.config.raw.eorMarker c ∧
      t = (acceptChunk c s).2.respond (.ok (.records rs eor)) := by
  obtain rfl := Host.Outcome.next.inj
    (h.symm.trans (exec_push (chunkRefused_of_exec_push_records h hp)))
  obtain ⟨rfl, rfl⟩ : _ = rs ∧ _ = eor := by simpa using hp
  exact ⟨rfl, rfl, rfl⟩

/-- Settles O24: cutting bytes and words in closed form, and the end-of-run check on the chunk. -/
theorem pushCutsWordsAndRecords : Obligations.PushCutsWordsAndRecords := by
  refine ⟨fun s c hmode hlen => exec_push_refused (chunkRefused_iff.2 ⟨hmode, hlen⟩), ?_⟩
  intro s c hc b ws
  have heor : endOfRun s.config.raw.eorMarker c =
      decide (4 ≤ c.length ∧ wordAt c (c.length - 4) = s.config.raw.eorMarker) :=
    Bool.eq_iff_iff.2 (endOfRun_iff.trans decide_eq_true_iff.symm)
  refine ⟨_, exec_push (chunkRefused_eq_false hc), ?_, ?_, ?_, rfl, rfl, rfl, rfl⟩
  · rw [State.respond_response, heor]
  · rw [acceptChunk_eq, State.respond_carry, State.writeDecoder_carry, cutGroups_snd]
  · rw [acceptChunk_eq, State.respond_resid, State.writeDecoder_resid]

/-- Settles O25: the records are the whole groups of six words, and the lengths left over are those
after the chunk is taken in. -/
theorem pushCountsRecordsWordsAndBytes : Obligations.PushCountsRecordsWordsAndBytes := by
  intro s t c rs eor h hp
  obtain ⟨rfl, -, rfl⟩ := exec_push_records h hp
  refine ⟨?_, (acceptChunk_lengths c s).2⟩
  rw [recordsOfWords_length, List.length_append, wordsOfStream_length, List.length_append]

/-- Settles O27: the check looks at the chunk and the marker alone, and nothing else that `PUSH`
does looks at the marker. -/
theorem endOfRunIsTheLastFourBytesOfTheChunk :
    Obligations.EndOfRunIsTheLastFourBytesOfTheChunk := by
  refine ⟨fun s t c rs eor h hp => ?_, fun s t u d m c rs eor hd h hp hu => ?_⟩
  · obtain ⟨-, rfl, -⟩ := exec_push_records h hp
    exact endOfRun_iff
  · have hc : chunkRefused d.raw.chunkMode c = false :=
      hd ▸ chunkRefused_of_exec_push_records h hp
    have hrecords (ws : List Word) : recordsOfWords d ws = recordsOfWords s.config ws := by
      rw [recordsOfWords, hd, recordsOfWords]
    obtain ⟨rfl, -, rfl⟩ := exec_push_records h hp
    obtain rfl := Host.Outcome.next.inj (hu.symm.trans (exec_push (s := { s with config := d }) hc))
    exact ⟨⟨_, by rw [State.respond_response, hrecords]⟩, rfl, rfl⟩

/-- Settles O29: both operations take the chunk in alike and differ in the results alone. -/
theorem pushrawKeepsTheBooksOfPush : Obligations.PushrawKeepsTheBooksOfPush := by
  refine ⟨fun s c hc => ?_, fun s c hmode hlen =>
    exec_pushraw_refused (chunkRefused_iff.2 ⟨hmode, hlen⟩)⟩
  have hacc := chunkRefused_eq_false hc
  exact ⟨_, _, _, exec_push hacc, exec_pushraw hacc, rfl, rfl, rfl, rfl⟩

/-- Settles O30: `RSTSTRM` empties the DecoderState and repeats. -/
theorem rststrmEmptiesTheDecoder : Obligations.RststrmEmptiesTheDecoder := fun s =>
  have h : exec .rststrm s = .next ((s.writeDecoder [] []).respond (.ok .nothing)) :=
    exec_eq_complete .rststrm s
  ⟨_, h, rfl, rfl, rfl, rfl, rfl, rfl, rfl, exec_rststrm_repeat h⟩

/-! ### `FORMAT_ERR` -/

/-- R190: a failed operation fails with one of its own statuses. -/
theorem mem_failuresOf_of_operation_error {i : Instr} {e : Failure}
    (h : operation i s = .error e) : e ∈ failuresOf i := by
  cases i with
  | setfield r j v =>
    by_cases hin : ∃ f, s.HasField r j f ∧ f.minValue ≤ v ∧ v ≤ f.maxValue
    · obtain ⟨f, ⟨g, hg, hf⟩, hmin, hmax⟩ := hin
      cases h.symm.trans (setfield_eq_ok hg hf hmin hmax)
    · cases h.symm.trans (setfield_eq_rangeErr hin)
      exact List.mem_singleton_self _
  | pack r =>
    cases hg : resolveRegister s r with
    | error e' =>
      obtain rfl : e' = e := by simpa [operation, pack, packRegister, hg] using h
      simp [failuresOf, (resolveRegister_error_iff.1 hg).2]
    | ok g =>
      by_cases hempty : g.fields.isEmpty
      · obtain rfl : Failure.emptyErr = e := by
          simpa [operation, pack, packRegister, hg, hempty] using h
        simp [failuresOf]
      · simp [operation, pack, packRegister, hg, hempty] at h
  | decode r w =>
    cases hg : resolveRegister s r with
    | error e' =>
      obtain rfl : e' = e := by simpa [operation, decodeWord, hg] using h
      simp [failuresOf, (resolveRegister_error_iff.1 hg).2]
    | ok g => simp [operation, decodeWord, hg] at h
  | getfield r j =>
    cases hf : resolveField s r j with
    | error e' =>
      obtain rfl : e' = e := by simpa [operation, getfield, hf] using h
      simp [failuresOf, (resolveField_error_iff.1 hf).2]
    | ok f => simp [operation, getfield, hf] at h
  | lookup n =>
    cases hn : s.nameMap n with
    | none =>
      obtain rfl : Failure.lookupErr = e := by simpa [operation, lookup, hn] using h
      simp [failuresOf]
    | some l => simp [operation, lookup, hn] at h
  | push c | pushraw c =>
    cases hc : chunkRefused s.config.raw.chunkMode c with
    | true =>
      obtain rfl : Failure.formatErr = e := by simpa [operation, push, pushraw, hc] using h
      simp [failuresOf]
    | false => simp [operation, push, pushraw, hc] at h
  | wordmsb | bytesmsb | wordlsb | mkinstr | boardaddr | fwversion | fwdate | rststrm => cases h

/-- R190: which failing statuses an operation can answer. -/
theorem mem_failuresOf_of_exec_failed {i : Instr} {e : Failure} (h : exec i s = .next t)
    (he : t.response = some (.failed e)) : e ∈ failuresOf i := by
  rcases exec_cases h with ⟨u, res, -, rfl⟩ | ⟨e', ho, rfl⟩
  · cases he
  · obtain rfl : e' = e := by simpa using he
    exact mem_failuresOf_of_operation_error ho

/-- R193: only an operation that takes in a chunk has `FORMAT_ERR` among its statuses. -/
theorem formatErr_mem_failuresOf {i : Instr} (h : .formatErr ∈ failuresOf i) :
    ∃ c, i = .push c ∨ i = .pushraw c := by
  cases i with
  | push c => exact ⟨c, .inl rfl⟩
  | pushraw c => exact ⟨c, .inr rfl⟩
  | _ => simp [failuresOf] at h

/-- The operations that take in a chunk. -/
theorem chunkOf_eq_some_iff {i : Instr} :
    chunkOf i = some c ↔ i = .push c ∨ i = .pushraw c := by
  cases i <;> simp [chunkOf]

/-- R163, R176: an operation that takes in a chunk fails when the chunk is refused and succeeds
otherwise. -/
theorem exec_chunk_formatErr_iff {i : Instr} (hi : i = .push c ∨ i = .pushraw c)
    (h : exec i s = .next t) :
    t.response = some (.failed .formatErr) ↔ chunkRefused s.config.raw.chunkMode c = true := by
  cases hc : chunkRefused s.config.raw.chunkMode c with
  | true =>
    have ht : exec i s = .next (s.respond (.failed .formatErr)) := by
      rcases hi with rfl | rfl
      · exact exec_push_refused hc
      · exact exec_pushraw_refused hc
    cases h.symm.trans ht
    simp
  | false =>
    rcases hi with rfl | rfl
    · cases h.symm.trans (exec_push hc)
      simp
    · cases h.symm.trans (exec_pushraw hc)
      simp

/-- Settles O26: `FORMAT_ERR` is a status of the two operations that take in a chunk, which fail
when `CHUNK_MODE` refuses it. -/
theorem formatErrorExactlyOnRaggedChunks : Obligations.FormatErrorExactlyOnRaggedChunks := by
  intro s t i h
  refine ⟨⟨fun hp => ?_, ?_⟩, exec_failed h⟩
  · obtain ⟨c, hi⟩ := formatErr_mem_failuresOf (mem_failuresOf_of_exec_failed h hp)
    obtain ⟨hmode, hlen⟩ := chunkRefused_iff.1 ((exec_chunk_formatErr_iff hi h).1 hp)
    exact ⟨hmode, c, chunkOf_eq_some_iff.2 hi, hlen⟩
  · rintro ⟨hmode, c, hc, hlen⟩
    exact (exec_chunk_formatErr_iff (chunkOf_eq_some_iff.1 hc) h).2
      (chunkRefused_iff.2 ⟨hmode, hlen⟩)

end Sys2Proof.Machine
end

section
/-! PROOF. Runs of `PUSH` (`44_stream_reassembler.md` R180, R181): the records and the DecoderState
do not depend on how a stream is cut into chunks, and the end-of-run marker is reported on its
chunk. -/

namespace Sys2Proof.Machine

variable {s t : State} {stream : List Byte} {chunks : List (List Byte)} {ps : List Response}

/-! ### Running accepted chunks -/

/-- Every run of operations ends in a next state (`30_encoding.md` R73). -/
theorem exists_runInstrs_eq_some (is : List Instr) (s : State) :
    ∃ t ps, runInstrs is s = some (t, ps) := by
  induction is generalizing s with
  | nil => exact ⟨s, [], rfl⟩
  | cons i is ih =>
    obtain ⟨u, p, hx, hp⟩ := everyOperationAnswers i s
    obtain ⟨t, ps, hr⟩ := ih u
    exact ⟨t, p :: ps, by simp [runInstrs, hx, hr, hp]⟩

/-- R163: in `BYTE` mode every chunk is accepted, in `WORD` mode those of whole words. -/
theorem chunksAccepted {mode : ChunkMode}
    (h : mode = .byte ∨ ∀ c ∈ chunks, c.length % 4 = 0) :
    ∀ c ∈ chunks, chunkRefused mode c = false := by
  refine fun c hc => chunkRefused_eq_false ?_
  rintro ⟨rfl, hlen⟩
  rcases h with h | h
  · cases h
  · exact hlen (h c hc)

/-- Chunks of whole words make up a stream of whole words. -/
theorem length_flatten_mod_four (h : ∀ c ∈ chunks, c.length % 4 = 0) :
    chunks.flatten.length % 4 = 0 := by
  rw [List.length_flatten]
  refine Nat.mod_eq_zero_of_dvd (List.dvd_sum fun n hn => ?_)
  obtain ⟨c, hc, rfl⟩ := List.mem_map.1 hn
  exact Nat.dvd_of_mod_eq_zero (h c hc)

/-- A run that begins with a `PUSH` of an accepted chunk. -/
theorem runInstrs_push_cons {c : List Byte}
    (hc : chunkRefused s.config.raw.chunkMode c = false)
    (h : runInstrs ((c :: chunks).map .push) s = some (t, ps)) :
    ∃ p qs, responseRecords p =
        recordsOfWords s.config (s.carry ++ wordsOfStream (s.resid ++ c)) ∧
      responseEor p = some (endOfRun s.config.raw.eorMarker c) ∧
      runInstrs (chunks.map .push) ((acceptChunk c s).2.respond p) = some (t, qs) ∧
      ps = p :: qs := by
  obtain ⟨u, p, qs, hx, hp, hr, rfl⟩ := runInstrs_cons h
  obtain rfl := Host.Outcome.next.inj (hx.symm.trans (exec_push hc))
  obtain rfl := Option.some.inj hp
  exact ⟨_, qs, rfl, rfl, hr, rfl⟩

/-! ### The records of a run -/

/-- Grouping goes on from the words left over: the records of the stream so far and those of the
carried and new words are the records of the longer stream. -/
theorem State.HoldsStream.records_append (h : s.HoldsStream stream) (d : Config) (c : List Byte) :
    recordsOfWords d (wordsOfStream stream) ++
        recordsOfWords d (s.carry ++ wordsOfStream (s.resid ++ c)) =
      recordsOfWords d (wordsOfStream (stream ++ c)) := by
  obtain ⟨hresid, hcarry⟩ := State.holdsStream_iff.1 h
  have hwords (bs : List Byte) : wordsOfStream bs = (cutWords bs).1 := by rw [cutWords_eq]
  simp only [← map_decodeRecord_cutGroups, hwords]
  rw [cutWords_append stream c, cutGroups_append (cutWords stream).1, List.map_append, hresid,
    hcarry]

/-- The response is no part of the DecoderState. -/
theorem State.HoldsStream.respond (h : s.HoldsStream stream) (p : Response) :
    (s.respond p).HoldsStream stream :=
  h.of_decoder_eq rfl rfl

/-- R180: a run of accepted chunks extends the stream by all of them, and hands back the records
this completes. -/
theorem runInstrs_push_holdsStream (hs : s.HoldsStream stream)
    (hacc : ∀ c ∈ chunks, chunkRefused s.config.raw.chunkMode c = false)
    (h : runInstrs (chunks.map .push) s = some (t, ps)) :
    t.HoldsStream (stream ++ chunks.flatten) ∧
      recordsOfWords s.config (wordsOfStream stream) ++ ps.flatMap responseRecords =
        recordsOfWords s.config (wordsOfStream (stream ++ chunks.flatten)) := by
  induction chunks generalizing s stream ps with
  | nil =>
    obtain ⟨rfl, rfl⟩ := Prod.mk.inj (Option.some.inj h)
    simpa using hs
  | cons c chunks ih =>
    obtain ⟨hc, hchunks⟩ := List.forall_mem_cons.1 hacc
    obtain ⟨p, qs, hp, -, hr, rfl⟩ := runInstrs_push_cons hc h
    obtain ⟨ht, hrecords⟩ := ih ((hs.acceptChunk c).respond p) hchunks hr
    rw [List.append_assoc] at ht hrecords
    refine ⟨ht, ?_⟩
    rw [List.flatMap_cons, hp, ← List.append_assoc, hs.records_append]
    exact hrecords

/-- R166: each of a run's accepted chunks is answered with its own end-of-run check. -/
theorem runInstrs_push_responseEor
    (hacc : ∀ c ∈ chunks, chunkRefused s.config.raw.chunkMode c = false)
    (h : runInstrs (chunks.map .push) s = some (t, ps)) :
    ps.map responseEor = chunks.map fun c => some (endOfRun s.config.raw.eorMarker c) := by
  induction chunks generalizing s ps with
  | nil =>
    obtain ⟨rfl, rfl⟩ := Prod.mk.inj (Option.some.inj h)
    rfl
  | cons c chunks ih =>
    obtain ⟨hc, hchunks⟩ := List.forall_mem_cons.1 hacc
    obtain ⟨p, qs, -, hp, hr, rfl⟩ := runInstrs_push_cons hc h
    rw [List.map_cons, List.map_cons, hp]
    exact congrArg (_ :: ·) (ih (s := (acceptChunk c s).2.respond p) hchunks hr)

/-- A run of accepted chunks has no failure among its answers. -/
theorem ne_failed_of_runInstrs_push
    (hacc : ∀ c ∈ chunks, chunkRefused s.config.raw.chunkMode c = false)
    (h : runInstrs (chunks.map .push) s = some (t, ps)) (e : Failure) :
    ∀ p ∈ ps, p ≠ .failed e := by
  rintro p hp rfl
  have hmem : responseEor (.failed e) ∈ ps.map responseEor := List.mem_map_of_mem hp
  rw [runInstrs_push_responseEor hacc h] at hmem
  obtain ⟨c, -, hc⟩ := List.mem_map.1 hmem
  cases hc

/-- R34: the DecoderState is determined by the stream it is of. -/
theorem State.HoldsStream.decoder_eq (hs : s.HoldsStream stream) (ht : t.HoldsStream stream) :
    s.carry = t.carry ∧ s.resid = t.resid := by
  obtain ⟨hsresid, hscarry⟩ := State.holdsStream_iff.1 hs
  obtain ⟨htresid, htcarry⟩ := State.holdsStream_iff.1 ht
  exact ⟨hscarry.trans htcarry.symm, hsresid.trans htresid.symm⟩

/-- Settles O31: a run of accepted chunks hands back the records, and leaves the DecoderState, of
the stream they make up, and so does the stream pushed at once; a ragged chunk is refused. -/
theorem recordsDoNotDependOnTheSplit : Obligations.RecordsDoNotDependOnTheSplit := by
  refine ⟨fun s chunks hcarry hresid hmode => ?_, fun s before c _ _ hword hbefore hlen => ?_⟩
  · have hs : s.HoldsStream [] := State.holdsStream_nil hcarry hresid
    have hwhole : chunkRefused s.config.raw.chunkMode chunks.flatten = false :=
      chunksAccepted (hmode.imp_right fun h => by simpa using length_flatten_mod_four h)
        chunks.flatten (List.mem_singleton_self _)
    obtain ⟨t, ps, hrun⟩ := exists_runInstrs_eq_some (chunks.map .push) s
    obtain ⟨ht, hrecords⟩ := runInstrs_push_holdsStream hs (chunksAccepted hmode) hrun
    have hone : recordsOfWords s.config (s.carry ++ wordsOfStream (s.resid ++ chunks.flatten)) =
        recordsOfWords s.config (wordsOfStream chunks.flatten) := by
      rw [hcarry, hresid, List.nil_append, List.nil_append]
    exact ⟨t, ps, _, _, hrun, exec_push hwhole, rfl, hrecords.trans hone.symm, hone,
      ht.decoder_eq ((hs.acceptChunk chunks.flatten).respond _)⟩
  · obtain ⟨t, ps, hrun⟩ := exists_runInstrs_eq_some (before.map .push) s
    have hacc := chunksAccepted (mode := s.config.raw.chunkMode) (.inr hbefore)
    have hrefused : chunkRefused t.config.raw.chunkMode c = true :=
      chunkRefused_iff.2 ⟨runInstrs_config hrun ▸ hword, hlen⟩
    exact ⟨t, ps, hrun, ne_failed_of_runInstrs_push hacc hrun _, exec_push_refused hrefused⟩

/-! ### The sentinel -/

/-- R132: four bytes are determined by their word. -/
theorem lsb32_injective : Function.Injective lsb32 := by
  intro a b h
  rw [lsb32_eq_msb32_reverse, lsb32_eq_msb32_reverse] at h
  exact congrArg Bytes4.reverse (msb32_injective h)

/-- R166, R87: `eor` is 1 exactly for a chunk that ends in the marker bytes. -/
theorem endOfRun_iff_markerBytes_suffix {c : List Byte} {m : Word} :
    endOfRun m c = true ↔ markerBytes m <:+ c := by
  have hm : lsb32 (bytesMsb m).reverse = m := by
    rw [lsb32_eq_msb32_reverse]
    exact msb32_bytesMsb m
  rw [endOfRun_iff_exists_append]
  constructor
  · rintro ⟨pre, b, rfl, hb⟩
    obtain rfl : b = (bytesMsb m).reverse := lsb32_injective (hb.trans hm.symm)
    exact List.suffix_append _ _
  · rintro ⟨pre, rfl⟩
    exact ⟨pre, (bytesMsb m).reverse, rfl, hm⟩

/-- Settles O32: a chunk is answered with 1 exactly when it ends in the marker bytes, and a stream
that ends in them has them in a last chunk of at least 4 bytes. -/
theorem sentinelIsReportedOnceOnItsChunk : Obligations.SentinelIsReportedOnceOnItsChunk := by
  intro s before last hmode hbefore
  obtain ⟨t, ps, hrun⟩ := exists_runInstrs_eq_some ((before ++ [last]).map .push) s
  have heor := runInstrs_push_responseEor (chunksAccepted hmode) hrun
  have hfalse (c : List Byte) (hc : ¬markerBytes s.config.raw.eorMarker <:+ c) :
      endOfRun s.config.raw.eorMarker c = false :=
    Bool.eq_false_iff.2 fun h => hc (endOfRun_iff_markerBytes_suffix.1 h)
  have hinit : (before.map fun c => some (endOfRun s.config.raw.eorMarker c)) =
      before.map fun _ => some false :=
    List.map_congr_left fun c hc => congrArg some (hfalse c (hbefore c hc))
  refine ⟨t, ps, hrun, fun hlen hsuffix => ?_, fun hlast => ?_⟩
  · have hlast : markerBytes s.config.raw.eorMarker <:+ last := by
      refine List.suffix_of_suffix_length_le hsuffix ?_ hlen
      simp
    rw [heor, List.map_append, hinit, List.map_singleton, endOfRun_iff_markerBytes_suffix.2 hlast]
  · rw [heor, List.map_append, List.map_append, hinit, List.map_singleton, hfalse last hlast]
    rfl

end Sys2Proof.Machine
end

section
/-! PROOF. The failing statuses (`60_exceptions.md` R190 to R196): which operation answers which,
the causes of `RANGE_ERR`, and that a failure leaves no trace. -/

namespace Sys2Proof.Machine

variable {s t : State} {r i : Nat} {v w : Word}

/-! ### The statuses of an operation -/

/-- R194, R196: `TRANSPORT_ERR` and `ILLEGAL_OP` are statuses of no operation. -/
theorem ne_of_mem_failuresOf {k : Instr} {e : Failure} (h : e ∈ failuresOf k) :
    e ≠ .transportErr ∧ e ≠ .illegalOp := by
  cases k with
  | pack r =>
    rcases List.mem_pair.1 h with rfl | rfl <;> decide
  | setfield | decode | getfield | lookup | push | pushraw =>
    cases List.mem_singleton.1 h
    decide
  | wordmsb | bytesmsb | wordlsb | mkinstr | boardaddr | fwversion | fwdate | rststrm => cases h

/-- Settles O36: a failed operation fails with one of its own statuses, and the two others are the
status of none. -/
theorem statusesOfEachOperation : Obligations.StatusesOfEachOperation := by
  intro k s t e h he
  have hmem : e ∈ failuresOf k := mem_failuresOf_of_exec_failed h he
  exact ⟨hmem, ne_of_mem_failuresOf hmem⟩

/-! ### The causes of `RANGE_ERR` -/

/-- An instruction answers a failure exactly when its operation ends in it. -/
theorem exec_failed_iff {k : Instr} {e : Failure} (h : exec k s = .next t) :
    t.response = some (.failed e) ↔ operation k s = .error e := by
  rcases exec_cases h with ⟨u, res, ho, rfl⟩ | ⟨e', ho, rfl⟩ <;> simp [ho]

/-- R191 (d): a register operand is rejected when its id is not below `NREG`. -/
theorem resolveRegister_rangeErr_iff :
    resolveRegister s r = .error .rangeErr ↔ s.registers.length ≤ r := by
  simp [resolveRegister_error_iff]

/-- R191 (b), (c), (d): a field operand is rejected when it names no field. -/
theorem resolveField_rangeErr_iff :
    resolveField s r i = .error .rangeErr ↔ ¬∃ f, s.HasField r i f := by
  cases hf : resolveField s r i with
  | ok f =>
    exact iff_of_false nofun (not_not_intro ⟨f, resolveField_ok_iff.1 hf⟩)
  | error e =>
    obtain ⟨hnone, rfl⟩ := resolveField_error_iff.1 hf
    refine iff_of_true rfl ?_
    rintro ⟨f, g, hg, hgf⟩
    cases hgf.symm.trans (hnone g hg)

/-- R191 (a), (b), (c), (d): the causes for `SETFIELD`. -/
theorem setfield_rangeErr_iff :
    setfield r i v s = .error .rangeErr ↔
      ¬∃ f, s.HasField r i f ∧ f.minValue ≤ v ∧ v ≤ f.maxValue := by
  refine ⟨?_, setfield_eq_rangeErr⟩
  rintro he ⟨f, ⟨g, hg, hf⟩, hmin, hmax⟩
  cases he.symm.trans (setfield_eq_ok hg hf hmin hmax)

/-- R191 (b), (c), (d): the causes for `GETFIELD`. -/
theorem getfield_rangeErr_iff :
    getfield r i s = .error .rangeErr ↔ ¬∃ f, s.HasField r i f := by
  rw [← resolveField_rangeErr_iff, getfield]
  cases resolveField s r i <;> simp

/-- R191 (d): the cause for `PACK`; an empty register is not one. -/
theorem pack_rangeErr_iff : pack r s = .error .rangeErr ↔ s.registers.length ≤ r := by
  rw [← resolveRegister_rangeErr_iff, pack, packRegister]
  cases resolveRegister s r with
  | error e => simp
  | ok g => by_cases hempty : g.fields = [] <;> simp [hempty]

/-- R191 (d): the cause for `DECODE`. -/
theorem decodeWord_rangeErr_iff :
    decodeWord r w s = .error .rangeErr ↔ s.registers.length ≤ r := by
  rw [← resolveRegister_rangeErr_iff, decodeWord]
  cases resolveRegister s r <;> simp

/-- Settles O37: the four operations fail so when their operands name nothing, or `SETFIELD` a value
out of range; `RANGE_ERR` is a status of no other. -/
theorem rangeErrorCauses : Obligations.RangeErrorCauses := by
  intro k s t h
  refine ⟨(exec_failed_iff h).trans ?_, exec_failed h⟩
  cases k with
  | setfield => exact setfield_rangeErr_iff
  | getfield => exact getfield_rangeErr_iff
  | pack => exact pack_rangeErr_iff
  | decode => exact decodeWord_rangeErr_iff
  | lookup | wordmsb | bytesmsb | wordlsb | mkinstr | boardaddr | fwversion | fwdate | push
  | pushraw | rststrm =>
    refine iff_of_false (fun he => ?_) not_false
    have hmem := mem_failuresOf_of_operation_error he
    simp [failuresOf] at hmem

/-! ### Failures leave no trace -/

/-- R195: a step that answers a failure leaves the state but for the response and the request taken
off the host's list. -/
theorem step_failed {q : Request} {rest : List Request} {e : Failure} (hp : s.program = q :: rest)
    (h : step s = .next t) (he : t.response = some (.failed e)) :
    t = ({ s with program := rest } : State).fail e := by
  rcases step_next_cases h with ⟨hnil, -⟩ | ⟨q', rest', hp', hcase⟩
  · cases hp.symm.trans hnil
  · obtain ⟨rfl, rfl⟩ := List.cons.inj (hp.symm.trans hp')
    rcases hcase with ⟨k, -, hx⟩ | ⟨-, rfl⟩
    · exact exec_failed hx he
    · obtain rfl : Failure.illegalOp = e := by simpa using he
      rfl

/-- Settles O38: a failure hands the state it began with on, in an operation and in a step. -/
theorem failureLeavesNoTrace : Obligations.FailureLeavesNoTrace :=
  ⟨fun _ _ _ _ => exec_failed, fun _ _ _ _ _ => step_failed⟩

end Sys2Proof.Machine
end
